-- ==== Sys2Proof/Word.lean ====
section
/-! DEFINITION. The word types of the digest-sip_hash CORE (00_scope.md R5, R7, R8): unsigned bit vectors of
stated widths, bit 0 the least significant. -/

namespace Sys2Proof

/-- A 64-bit word (R5: word width W = 64). -/
abbrev Word := BitVec 64

/-- A byte, a round count or a length modulo 256 (R5, R7). -/
abbrev Byte := BitVec 8

/-- A command word, `CW_BITS` = 152 (R7, R80). -/
abbrev CommandWord := BitVec 152

/-- A response word, `RESP_BITS` = 72 (R7, R87). -/
abbrev ResponseWord := BitVec 72

end Sys2Proof
end

