-- ==== Sys2Proof/Config.lean ====
section
/-! DEFINITION. The configuration of the core: the four initialization constants (00_scope.md R6). -/

namespace Sys2Proof

/-- The four 64-bit initialization constants, "named parameters of the model" (R6). They are configuration, not
state (10_state.md R31). -/
structure Config where
  c0 : Word
  c1 : Word
  c2 : Word
  c3 : Word
  deriving DecidableEq, Repr

/-- The default values of R6 ("somepseu", "dorandom", "lygenera", "tedbytes"): the configuration the machine
runs with. UNVERIFIED (log entry 5): R6 gives these values itself but marks them as general knowledge, confirmed by
the document's digests; a core whose parameters are set otherwise is another machine. -/
def Config.standard : Config where
  c0 := 0x736f6d6570736575#64
  c1 := 0x646f72616e646f6d#64
  c2 := 0x6c7967656e657261#64
  c3 := 0x7465646279746573#64

end Sys2Proof
end

