-- ==== Sys2Proof/Machine/Operands.lean ====
section
/-! DEFINITION. Operand forms: the fields of a command word (30_encoding.md R80, R82), the fields of a response
word (R87), byte lanes and byte order (00_scope.md R8, R10; 20_memory.md R51, R52, R53), and the three 64-bit
primitives (40_permutation.md R110, R111, R112). -/

namespace Sys2Proof.Machine

/-! ## Fields of the command word (R80, R82) -/

/-- `cw[151:144]`. -/
def opField (cw : CommandWord) : Byte := cw.extractLsb' 144 8
/-- `cw[143:136]`, the finalization round count d. -/
def dField (cw : CommandWord) : Byte := cw.extractLsb' 136 8
/-- `cw[135:128]`, the compression round count c. -/
def cField (cw : CommandWord) : Byte := cw.extractLsb' 128 8
/-- `cw[127:64]`, key bytes 8 to 15. -/
def k1Field (cw : CommandWord) : Word := cw.extractLsb' 64 64
/-- `cw[63:0]`, key bytes 0 to 7. -/
def k0Field (cw : CommandWord) : Word := cw.extractLsb' 0 64
/-- `cw[63:0]`, eight message bytes. -/
def wordField (cw : CommandWord) : Word := cw.extractLsb' 0 64
/-- `cw[7:0]`, one message byte. -/
def byteField (cw : CommandWord) : Byte := cw.extractLsb' 0 8

/-! ## The response word (R87) -/

/-- `{code, data}`: code in bits 71:64, data in bits 63:0. -/
def response (code : Byte) (data : Word) : ResponseWord :=
  (code.setWidth 72 <<< 64) ||| data.setWidth 72
/-- `resp[71:64]`. -/
def respCode (r : ResponseWord) : Byte := r.extractLsb' 64 8
/-- `resp[63:0]`. -/
def respData (r : ResponseWord) : Word := r.extractLsb' 0 64

/-! ## Byte lanes and byte order -/

/-- Byte `i` of a word is `w[8*i+7 : 8*i]` (R8). -/
def byteOf (w : Word) (i : Nat) : Byte := w.extractLsb' (8 * i) 8

/-- The eight bytes of a word operand in message order: the first is `w[7:0]` (R82, R142). -/
def wordBytes (w : Word) : List Byte :=
  [byteOf w 0, byteOf w 1, byteOf w 2, byteOf w 3, byteOf w 4, byteOf w 5, byteOf w 6, byteOf w 7]

/-- `le64`: byte `i` of the result is the `i`-th byte of the sequence; missing high bytes are zero (R10). -/
def le64 : List Byte → Word
  | [] => 0#64
  | b :: bs => (le64 bs <<< 8) ||| b.setWidth 64

/-- `be_bytes`: the eight bytes of a word, most significant first (R10). -/
def beBytes (w : Word) : List Byte :=
  [byteOf w 7, byteOf w 6, byteOf w 5, byteOf w 4, byteOf w 3, byteOf w 2, byteOf w 1, byteOf w 0]

/-- `MemRead(space, a, 1)` of a boundary buffer, defined for `a` inside it (R51). -/
def memRead1 (space : List Byte) (a : Nat) : Option Byte := space[a]?

/-- `MemRead(space, a, 8)`: `le64` of the bytes at offsets a to a+7, defined for a+7 inside the buffer (R51). -/
def memRead8 (space : List Byte) (a : Nat) : Option Word :=
  if a + 7 < space.length then some (le64 ((space.drop a).take 8)) else none

/-! ## 64-bit primitives -/

/-- ADD64: addition modulo 2^64, the carry out discarded (R9, R110). -/
def add64 (a b : Word) : Word := a + b
/-- XOR64: bitwise exclusive or (R9, R112). -/
def xor64 (a b : Word) : Word := a ^^^ b
/-- ROTL64: left circular shift, `((a << n) | (a >> (64 - n)))` for 0 < n < 64 (R9, R111). -/
def rotl64 (a : Word) (n : Nat) : Word := (a <<< n) ||| (a >>> (64 - n))

end Sys2Proof.Machine
end

