-- ==== Sys2Proof/Syntax.lean ====
section
/-! DEFINITION. The commands of the core: one constructor per row of spec/opcode_table.json (30_encoding.md R83). -/

namespace Sys2Proof

/-- A decoded command with its operands (R82): all operands are unsigned and used at their own width, and every
value of that width is legal, so the types carry the whole of an instruction's well-formedness. -/
inductive Instr where
  /-- NOP, opcode 0x00, format Z (R192). -/
  | nop
  /-- INIT, opcode 0x01, format K: key words `k0`, `k1`, round counts `c`, `d` (R132). -/
  | init (k0 k1 : Word) (c d : Byte)
  /-- ABSB, opcode 0x02, format B: one message byte (R141). -/
  | absb (b : Byte)
  /-- ABSW, opcode 0x03, format W: eight message bytes, the first in bits 7:0 (R142). -/
  | absw (w : Word)
  /-- FINAL, opcode 0x04, format Z (R163). -/
  | final
  /-- RDIG, opcode 0x05, format Z (R164). -/
  | rdig
  /-- RDST, opcode 0x06, format Z (R193). -/
  | rdst
  /-- RST, opcode 0x07, format Z (R194). -/
  | rst
  deriving DecidableEq, Repr

end Sys2Proof
end

