-- ==== Sys2Proof/WellFormed.lean ====
section
/-! DEFINITION. What is well formed: a command word (it matches a row of the match and mask table of
30_encoding.md R83), and a call of a one-shot operation at the boundary (44_public_api.md R176, R180). The
operands of an `Instr` carry their widths in their types and every value of them is legal (R82, R85), so an
`Instr` needs no check of its own. The table stands here apart from the decoder, which follows R91. -/

namespace Sys2Proof

/-- One row of the match and mask table of R83: a word selects the row when `cw & mask = match`. -/
structure OpcodeRow where
  mnemonic : String
  pattern : CommandWord
  mask : CommandWord
  deriving DecidableEq, Repr

/-- The word `cw` selects the row (R83). -/
def OpcodeRow.selectedBy (r : OpcodeRow) (cw : CommandWord) : Bool :=
  cw &&& r.mask == r.pattern

/-- The match and mask values of R83. -/
def opcodeRows : List OpcodeRow :=
  [ ⟨"NOP",   0x00000000000000000000000000000000000000#152, 0xffffffffffffffffffffffffffffffffffffff#152⟩,
    ⟨"INIT",  0x01000000000000000000000000000000000000#152, 0xff000000000000000000000000000000000000#152⟩,
    ⟨"ABSB",  0x02000000000000000000000000000000000000#152, 0xffffffffffffffffffffffffffffffffffff00#152⟩,
    ⟨"ABSW",  0x03000000000000000000000000000000000000#152, 0xffffffffffffffffffffff0000000000000000#152⟩ ] ++
  [ ⟨"FINAL", 0x04000000000000000000000000000000000000#152, 0xffffffffffffffffffffffffffffffffffffff#152⟩,
    ⟨"RDIG",  0x05000000000000000000000000000000000000#152, 0xffffffffffffffffffffffffffffffffffffff#152⟩,
    ⟨"RDST",  0x06000000000000000000000000000000000000#152, 0xffffffffffffffffffffffffffffffffffffff#152⟩,
    ⟨"RST",   0x07000000000000000000000000000000000000#152, 0xffffffffffffffffffffffffffffffffffffff#152⟩ ]

/-- A command word is legal exactly when it matches a row of R83 (R85). -/
def CommandWord.wellFormed (cw : CommandWord) : Bool :=
  opcodeRows.any (fun r => r.selectedBy cw)

/-- A call of HASH at the boundary: the caller's key and message buffers and the two round counts it asks for
(R176). The counts are numbers here, because a caller may ask for more than the 8-bit fields can spell
(93_implementation_defined.md U5). -/
structure HashCall where
  key : List Byte
  msg : List Byte
  c : Nat
  d : Nat
  deriving DecidableEq, Repr

/-- R180: the key buffer is exactly 16 bytes long. -/
def HashCall.keyLengthOk (call : HashCall) : Bool :=
  call.key.length == 16

/-- R176, U5: the counts fit the 8-bit fields c and d. -/
def HashCall.countsOk (call : HashCall) : Bool :=
  call.c < 256 && call.d < 256

/-- A call that the boundary gives a digest (R176): both checks pass. -/
def HashCall.wellFormed (call : HashCall) : Bool :=
  call.keyLengthOk && call.countsOk

end Sys2Proof
end

