-- ==== Sys2Proof/Decode.lean ====
section
/-! DEFINITION. The decoder of 30_encoding.md R91, total on 152-bit words and reading no state, and after it the
encoder written from the formats of R81. -/

namespace Sys2Proof

open Sys2Proof.Machine

/-- The four formats of R81. -/
inductive Format where
  | z
  | b
  | w
  | k
  deriving DecidableEq, Repr

/-- Why a word is Illegal (R91): stage (1) or stage (2). -/
inductive IllegalCause where
  /-- Opcode 0x08 to 0xff (R84). -/
  | reservedOpcode
  /-- An assigned opcode with a must-be-zero bit set (R85). -/
  | mustBeZero
  deriving DecidableEq, Repr

/-- The result of decoding (R91): Illegal, or the command with its operands. -/
inductive Decoded where
  | illegal (why : IllegalCause)
  | ok (i : Instr)
  deriving DecidableEq, Repr

/-- The instruction read, none for Illegal. -/
def Decoded.instr : Decoded → Option Instr
  | .illegal _ => none
  | .ok i => some i

/-- The format of an assigned opcode (R83). -/
def formatOf (op : Byte) : Format :=
  if op = 0x01#8 then .k
  else if op = 0x02#8 then .b
  else if op = 0x03#8 then .w
  else .z

/-- Some must-be-zero bit of the format is 1 (R85): bits 143:0 in format Z, 143:8 in B, 143:64 in W, none in K. -/
def mbzSet (f : Format) (cw : CommandWord) : Bool :=
  match f with
  | .z => cw.extractLsb' 0 144 != 0#144
  | .b => cw.extractLsb' 8 136 != 0#136
  | .w => cw.extractLsb' 64 80 != 0#80
  | .k => false

/-- The command of an assigned opcode with its operands (R82, R83). -/
def commandOf (cw : CommandWord) : Instr :=
  match (opField cw).toNat with
  | 0 => .nop
  | 1 => .init (k0Field cw) (k1Field cw) (cField cw) (dField cw)
  | 2 => .absb (byteField cw)
  | 3 => .absw (wordField cw)
  | 4 => .final
  | 5 => .rdig
  | 6 => .rdst
  | _ => .rst

/-- Decoding in the order of R91: reserved opcode, then must-be-zero bits, then the command. -/
def decode (cw : CommandWord) : Decoded :=
  if 0x07#8 < opField cw then .illegal .reservedOpcode
  else if mbzSet (formatOf (opField cw)) cw then .illegal .mustBeZero
  else .ok (commandOf cw)

/-- The opcode of an instruction (R83). -/
def opcodeOf : Instr → Byte
  | .nop => 0x00#8
  | .init _ _ _ _ => 0x01#8
  | .absb _ => 0x02#8
  | .absw _ => 0x03#8
  | .final => 0x04#8
  | .rdig => 0x05#8
  | .rdst => 0x06#8
  | .rst => 0x07#8

/-- A field standing at bit `lo` of a command word that is otherwise zero (R80). -/
def field {n : Nat} (v : BitVec n) (lo : Nat) : CommandWord := v.setWidth 152 <<< lo

/-- The command word of an instruction: its fields at the places R80 and R81 give them, every other bit zero. -/
def encode : Instr → CommandWord
  | .nop => field 0x00#8 144
  | .init k0 k1 c d => field 0x01#8 144 ||| field d 136 ||| field c 128 ||| field k1 64 ||| field k0 0
  | .absb b => field 0x02#8 144 ||| field b 0
  | .absw w => field 0x03#8 144 ||| field w 0
  | .final => field 0x04#8 144
  | .rdig => field 0x05#8 144
  | .rdst => field 0x06#8 144
  | .rst => field 0x07#8 144

/-- A word as the opcode table numbers it: `nbits` bits given, every bit above them zero. -/
def tableWord (nbits w : Nat) : CommandWord := BitVec.ofNat 152 (w % 2 ^ nbits)

/-- The instruction the decoder reads from a word of the opcode table. -/
def decodeTableWord (nbits w : Nat) : Option Instr := (decode (tableWord nbits w)).instr

end Sys2Proof
end

