-- ==== Sys2Proof/Machine/State.lean ====
section
/-! DEFINITION. The state of the core (10_state.md R20), the two ports it stands between, the reasons of a stop,
and the state after reset (10_state.md R33). -/

namespace Sys2Proof.Machine

/-- The four state words V0 to V3 (R21). -/
structure Words where
  v0 : Word
  v1 : Word
  v2 : Word
  v3 : Word
  deriving DecidableEq, Repr

/-- PHASE (R25): three legal values; "a model may make the type a three-constructor enumeration". -/
inductive Phase where
  | idle
  | absorbing
  | finalized
  deriving DecidableEq, Repr

/-- What the host's side can present to the core (00_scope.md R12, 70_reset_and_hazards.md R240). -/
inductive PortEvent where
  /-- A command word on the command port. -/
  | command (cw : CommandWord)
  /-- The hardware reset input, between commands. -/
  | resetInput
  /-- The hardware reset input arriving while this command is in progress, or this command presented while the
  reset input is active (R216, R240, 93_implementation_defined.md U12). -/
  | resetDuring (cw : CommandWord)
  deriving DecidableEq, Repr

/-- The exceptions of 60_exceptions.md R210. -/
inductive Exc where
  | invalidKeyLength
  | sequenceError
  | illegalCommand
  deriving DecidableEq, Repr

/-- The reasons the model answers with a fault. The core itself never does: its SequenceError and IllegalCommand
are next states (R217), and nothing else faults (R214). -/
inductive Fault where
  /-- The document's one error kind (R180, R211): raised by the boundary's HASH, SIPHASH13 and SIPHASH24
  (Machine/Boundary.lean) when the key buffer is not 16 bytes long, before any command word exists; never by a
  step of the core. Safe: it is the spec's own behaviour. -/
  | invalidKeyLength
  deriving DecidableEq, Repr

/-- The reasons the model gives no meaning. -/
inductive Refusal where
  /-- An arm of `exec` that has no meaning yet; no arm answers it now. Safe. -/
  | notModelled (mnemonic : String)
  /-- A round count above 255 handed to the boundary (93_implementation_defined.md U5: "refuse at the boundary");
  never answered by a step of the core. Safe: the spec gives HASH no meaning there. -/
  | roundCountTooWide
  deriving DecidableEq, Repr

/-- The eleven registers of R20, and the ports of the core as the model holds them. -/
structure State where
  /-- V0 to V3 (R21). -/
  v : Words
  /-- CR, the compression round count (R22). -/
  cr : Byte
  /-- FR, the finalization round count (R22). -/
  fr : Byte
  /-- LEN, message bytes absorbed since INIT, modulo 256 (R23). -/
  len : Byte
  /-- BUF, the bytes of the block in progress (R24). -/
  buf : Word
  /-- PHASE (R25). -/
  phase : Phase
  /-- DIGEST (R26). -/
  digest : Word
  /-- ERR, the sticky first fault code (R27). -/
  err : Byte
  /-- MODEL'S OWN: what the host has presented and the core has not taken yet, oldest first. DESIGN CHOICE
  (log entry 1). -/
  inputs : List PortEvent
  /-- MODEL'S OWN: the response words produced so far, oldest first. DESIGN CHOICE (log entry 2). -/
  responses : List ResponseWord
  deriving DecidableEq, Repr

/-- The machine right after reset (R33): every register 0, PHASE = IDLE; nothing presented, nothing answered. -/
def State.reset : State where
  v := ⟨0#64, 0#64, 0#64, 0#64⟩
  cr := 0#8
  fr := 0#8
  len := 0#8
  buf := 0#64
  phase := .idle
  digest := 0#64
  err := 0#8
  inputs := []
  responses := []

end Sys2Proof.Machine
end

