-- ==== Sys2Proof/Machine/Flags.lean ====
section
/-! DEFINITION. The core has no arithmetic flags and no condition codes (10_state.md R30). This file holds the
flag-like computations there are: the PHASE code and the STATUS word (R25, R28), the exception codes
(60_exceptions.md R210), the sticky ERR (R27), and the legality table (45_sequencer.md R191). -/

namespace Sys2Proof.Machine

/-- The 2-bit value of PHASE (R25). -/
def Phase.code : Phase → BitVec 2
  | .idle => 0#2
  | .absorbing => 1#2
  | .finalized => 2#2

/-- STATUS = `zext_64({ERR, FR, CR, LEN, 0b000000, PHASE})` (R28): ERR in bits 39:32, FR in 31:24, CR in 23:16, LEN
in 15:8, PHASE in 1:0, every other bit 0. -/
def status (s : State) : Word :=
  (s.err.setWidth 64 <<< 32) ||| (s.fr.setWidth 64 <<< 24) ||| (s.cr.setWidth 64 <<< 16) |||
    (s.len.setWidth 64 <<< 8) ||| s.phase.code.setWidth 64

/-- The code of an exception (R210). -/
def Exc.code : Exc → Byte
  | .invalidKeyLength => 1#8
  | .sequenceError => 2#8
  | .illegalCommand => 3#8

/-- The exception that a fault of the boundary reports to the caller (R180, R211). -/
def Fault.exc : Fault → Exc
  | .invalidKeyLength => .invalidKeyLength

/-- ERR after a fault of code `e`: the first code since reset is kept (R27, R217, R219). -/
def stickyErr (err e : Byte) : Byte := if err = 0#8 then e else err

/-- The legality table of R191: true is "ok", false is "SEQ". -/
def legal (i : Instr) (p : Phase) : Bool :=
  match i, p with
  | .nop, _ => true
  | .init _ _ _ _, _ => true
  | .absb _, .idle => false
  | .absb _, .absorbing => true
  | .absb _, .finalized => false
  | .absw _, .idle => false
  | .absw _, .absorbing => true
  | .absw _, .finalized => false
  | .final, .idle => false
  | .final, .absorbing => true
  | .final, .finalized => false
  | .rdig, .idle => false
  | .rdig, .absorbing => false
  | .rdig, .finalized => true
  | .rdst, _ => true
  | .rst, _ => true

end Sys2Proof.Machine
end

