-- ==== Sys2Proof/Machine/Ops.lean ====
section
/-! DEFINITION. The operations every command shares: responding, fault entry, the legality stage, reset, and taking
the next input from the ports (30_encoding.md R87; 45_sequencer.md R191, R195, R196; 60_exceptions.md R217;
70_reset_and_hazards.md R240). There is no return from an exception (R219), so none stands beside `raise`. -/

namespace Sys2Proof.Machine

/-- `respond(data)`: the command completes with code 0 and this data (R11, R195). -/
def respond (data : Word) (s : State) : State :=
  { s with responses := s.responses ++ [response 0#8 data] }

/-- Fault entry (R217): ERR takes the code if it was 0, the response is `{code, 0}`, and nothing else changes. -/
def raise (e : Exc) (s : State) : State :=
  { s with err := stickyErr s.err e.code
           responses := s.responses ++ [response e.code 0#64] }

/-- Stages 2 to 4 of a step (R196): a command that is not legal in the current PHASE raises SequenceError,
otherwise the result is the state its pseudocode leaves. -/
def sequenced (i : Instr) (s : State) (done : State) : Host.Outcome State Fault Refusal :=
  if legal i s.phase then .next done else .next (raise .sequenceError s)

/-- Every register takes its reset value (R33, R194, R240); the ports are not registers and keep what they hold. -/
def resetRegisters (s : State) : State :=
  { State.reset with inputs := s.inputs, responses := s.responses }

/-- The core's next input, with the state after it is taken from the port. -/
inductive Taken where
  /-- Nothing is presented. -/
  | nothing (s : State)
  /-- The reset input was taken. -/
  | reset (s : State)
  /-- A command word was taken. -/
  | word (cw : CommandWord) (s : State)
  deriving DecidableEq, Repr

/-- Take the oldest input. With nothing presented the core holds its state (R227; DEDUCED, log entry 6). A command
during which the reset input arrives is abandoned with no response (R240; log entry 3). -/
def takeInput (s : State) : Taken :=
  match s.inputs with
  | [] => .nothing s
  | .command cw :: rest => .word cw { s with inputs := rest }
  | .resetInput :: rest => .reset (resetRegisters { s with inputs := rest })
  | .resetDuring _ :: rest => .reset (resetRegisters { s with inputs := rest })

end Sys2Proof.Machine
end

