-- ==== Sys2Proof/Machine/Permutation.lean ====
section
/-! DEFINITION. The Permutation sub-block (40_permutation.md R113 to R117): SIPROUND and ROUNDS, pure functions of
the four words, as the combinational unit of R117 is. -/

namespace Sys2Proof.Machine

/-- SIPROUND, the fourteen steps of R113 in order, each reading what the steps before it left. -/
def sipRound (x : Words) : Words :=
  let x := { x with v0 := add64 x.v0 x.v1 }
  let x := { x with v1 := rotl64 x.v1 13 }
  let x := { x with v1 := xor64 x.v1 x.v0 }
  let x := { x with v0 := rotl64 x.v0 32 }
  let x := { x with v2 := add64 x.v2 x.v3 }
  let x := { x with v3 := rotl64 x.v3 16 }
  let x := { x with v3 := xor64 x.v3 x.v2 }
  let x := { x with v0 := add64 x.v0 x.v3 }
  let x := { x with v3 := rotl64 x.v3 21 }
  let x := { x with v3 := xor64 x.v3 x.v0 }
  let x := { x with v2 := add64 x.v2 x.v1 }
  let x := { x with v1 := rotl64 x.v1 17 }
  let x := { x with v1 := xor64 x.v1 x.v2 }
  { x with v2 := rotl64 x.v2 32 }

/-- `repeat n times: S` (R11): `n` applications in sequence, none for 0. -/
def repeatTimes {α : Type} (f : α → α) : Nat → α → α
  | 0, x => x
  | n + 1, x => repeatTimes f n (f x)

/-- ROUNDS(n): n applications of SIPROUND, n an 8-bit count (R115). -/
def rounds (n : Byte) (x : Words) : Words := repeatTimes sipRound n.toNat x

/-- The same round as one simultaneous assignment (R114); the reference function uses this form. -/
def sipRoundSimultaneous (x : Words) : Words :=
  let t0 := x.v0 + x.v1
  let t1 := rotl64 x.v1 13 ^^^ t0
  let t2 := x.v2 + x.v3
  let t3 := rotl64 x.v3 16 ^^^ t2
  let a' := rotl64 t0 32 + t3
  let d' := rotl64 t3 21 ^^^ a'
  let t4 := t2 + t1
  let b' := rotl64 t1 17 ^^^ t4
  let c' := rotl64 t4 32
  ⟨a', b', c', d'⟩

end Sys2Proof.Machine
end

