-- ==== Sys2Proof/Machine/KeySchedule.lean ====
section
/-! DEFINITION. The Key Schedule sub-block and the INIT command (41_key_schedule.md R130 to R135). -/

namespace Sys2Proof.Machine

/-- KEYINIT (R131): k0 goes into v0 and v2, k1 into v1 and v3. The combinational unit of R135. -/
def keyInit (cfg : Config) (k0 k1 : Word) : Words where
  v0 := xor64 cfg.c0 k0
  v1 := xor64 cfg.c1 k1
  v2 := xor64 cfg.c2 k0
  v3 := xor64 cfg.c3 k1

/-- INIT (R132): writes every register except ERR; legal in every phase. -/
def execInit (k0 k1 : Word) (c d : Byte) (s : State) : Host.Outcome State Fault Refusal :=
  sequenced (.init k0 k1 c d) s <|
    respond 0#64
      { s with v := keyInit Config.standard k0 k1
               cr := c
               fr := d
               len := 0#8
               buf := 0#64
               digest := 0#64
               phase := .absorbing }

end Sys2Proof.Machine
end

