-- ==== Sys2Proof/Machine/BlockProcessor.lean ====
section
/-! DEFINITION. The Block Processor sub-block: the compress-block step, the chunker and padding engine, and the
commands ABSB and ABSW (42_block_processor.md R140 to R149). -/

namespace Sys2Proof.Machine

/-- COMPRESS(m) (R140): XOR m into V3, CR rounds, XOR the same m into the V0 the rounds produced. -/
def compress (cr : Byte) (m : Word) (x : Words) : Words :=
  let x := { x with v3 := xor64 x.v3 m }
  let x := rounds cr x
  { x with v0 := xor64 x.v0 m }

/-- `LEN[2:0]`, the number of bytes pending in BUF (R23). -/
def pending (len : Byte) : Nat := len.toNat % 8

/-- TAILWORD (R143): the length byte above the trailing bytes. -/
def tailWord (buf : Word) (len : Byte) : Word := buf ||| (len.setWidth 64 <<< 56)

/-- What the chunker unit of R149 gives: its registers after the input, and `blk` when `blk_valid`. -/
structure ChunkOut where
  buf : Word
  len : Byte
  blk : Option Word
  deriving DecidableEq, Repr

/-- The chunker on one byte (R141): the byte goes to position `LEN[2:0]` of BUF; the eighth completes a block. -/
def chunkByte (b : Byte) (buf : Word) (len : Byte) : ChunkOut :=
  let r := pending len
  let buf := buf ||| (b.setWidth 64 <<< (8 * r))
  if r = 7 then ⟨0#64, len + 1#8, some buf⟩ else ⟨buf, len + 1#8, none⟩

/-- The chunker on one word, the closed form of R142. -/
def chunkWord (w : Word) (buf : Word) (len : Byte) : ChunkOut :=
  let r := pending len
  if r = 0 then ⟨buf, len + 8#8, some w⟩
  else ⟨w >>> (64 - 8 * r), len + 8#8, some (buf ||| (w <<< (8 * r)))⟩

/-- The chunker on `last` (R149): the block is TAILWORD, BUF is cleared, LEN kept (R163). -/
def chunkLast (buf : Word) (len : Byte) : ChunkOut := ⟨0#64, len, some (tailWord buf len)⟩

/-- Take the chunker's output: its registers, and the compress-block step on a valid block. -/
def takeChunk (o : ChunkOut) (s : State) : State :=
  { s with v := match o.blk with
                | some m => compress s.cr m s.v
                | none => s.v
           buf := o.buf
           len := o.len }

/-- The registers' part of ABSB (R141). -/
def absorbByte (s : State) (b : Byte) : State := takeChunk (chunkByte b s.buf s.len) s

/-- Several bytes absorbed in order. -/
def absorbBytes (bs : List Byte) (s : State) : State := bs.foldl absorbByte s

/-- ABSB (R141). -/
def execAbsb (b : Byte) (s : State) : Host.Outcome State Fault Refusal :=
  sequenced (.absb b) s (respond 0#64 (absorbByte s b))

/-- ABSW (R142): "by definition that of eight ABSB" with the bytes of the word in order, one atomic step with one
response. -/
def execAbsw (w : Word) (s : State) : Host.Outcome State Fault Refusal :=
  sequenced (.absw w) s (respond 0#64 (absorbBytes (wordBytes w) s))

end Sys2Proof.Machine
end

