-- ==== Sys2Proof/Machine/Finalizer.lean ====
section
/-! DEFINITION. The Finalizer sub-block and the commands FINAL and RDIG (43_finalizer.md R160 to R166). -/

namespace Sys2Proof.Machine

/-- FINALIZE (R160): XOR 0xff into V2, then FR rounds. -/
def finalize (fr : Byte) (x : Words) : Words :=
  rounds fr { x with v2 := xor64 x.v2 0x00000000000000ff#64 }

/-- FOLD (R161), the combinational unit of R166. -/
def foldWords (x : Words) : Word := xor64 (xor64 (xor64 x.v0 x.v1) x.v2) x.v3

/-- The registers' part of FINAL (R163): the tail block, FINALIZE, FOLD into DIGEST, PHASE to FINALIZED. -/
def finish (s : State) : State :=
  let t := takeChunk (chunkLast s.buf s.len) s
  let x := finalize t.fr t.v
  { t with v := x, digest := foldWords x, phase := .finalized }

/-- FINAL (R163): `respond(DIGEST)` with the DIGEST just written. -/
def execFinal (s : State) : Host.Outcome State Fault Refusal :=
  sequenced .final s (respond (finish s).digest (finish s))

/-- RDIG (R164): respond DIGEST, change no state. -/
def execRdig (s : State) : Host.Outcome State Fault Refusal :=
  sequenced .rdig s (respond s.digest s)

end Sys2Proof.Machine
end

