-- ==== Sys2Proof/Machine/Sequencer.lean ====
section
/-! DEFINITION. The housekeeping commands NOP, RDST and RST (45_sequencer.md R192, R193, R194). -/

namespace Sys2Proof.Machine

/-- NOP (R192): `respond(0)`. -/
def execNop (s : State) : Host.Outcome State Fault Refusal :=
  sequenced .nop s (respond 0#64 s)

/-- RDST (R193): `respond(STATUS)`, ERR not cleared. -/
def execRdst (s : State) : Host.Outcome State Fault Refusal :=
  sequenced .rdst s (respond (status s) s)

/-- RST (R194): every register takes its reset value, then `respond(0)`. -/
def execRst (s : State) : Host.Outcome State Fault Refusal :=
  sequenced .rst s (respond 0#64 (resetRegisters s))

end Sys2Proof.Machine
end

