-- ==== Sys2Proof/Machine/Dispatch.lean ====
section
/-! DEFINITION. One arm per command. -/

namespace Sys2Proof.Machine

def exec (i : Instr) (s : State) : Host.Outcome State Fault Refusal :=
  match i with
  | .nop => Sys2Proof.Machine.execNop s
  | .init k0 k1 c d => Sys2Proof.Machine.execInit k0 k1 c d s
  | .absb b => Sys2Proof.Machine.execAbsb b s
  | .absw w => Sys2Proof.Machine.execAbsw w s
  | .final => Sys2Proof.Machine.execFinal s
  | .rdig => Sys2Proof.Machine.execRdig s
  | .rdst => Sys2Proof.Machine.execRdst s
  | .rst => Sys2Proof.Machine.execRst s

end Sys2Proof.Machine
end

