-- ==== Sys2Proof/Machine/Step.lean ====
section
/-! DEFINITION. One step of the core (45_sequencer.md R196): take an input, decode it, execute it. -/

namespace Sys2Proof.Machine

/-- One step: a command word is decoded (Illegal raises IllegalCommand) and executed; the reset input resets. -/
def step (s : State) : Host.Outcome State Fault Refusal :=
  match takeInput s with
  | .nothing t => .next t
  | .reset t => .next t
  | .word cw t =>
    match decode cw with
    | .illegal _ => .next (raise .illegalCommand t)
    | .ok i => exec i t

/-- Present the word as the next input: the host's command port (log entry 1). -/
def State.withFetchWord (s : State) (nbits w : Nat) : State :=
  { s with inputs := .command (tableWord nbits w) :: s.inputs }

end Sys2Proof.Machine
end

