-- ==== Sys2Proof/Machine/Memory.lean ====
section
/-! DEFINITION. The write-only buffer DIG as memory (20_memory.md R50, R51, R57): exactly 8 bytes, offsets 0 to 7, held as
a list of (offset, byte) cells in one canonical form, offsets strictly rising. An offset is a `Fin 8`, so no cell can
stand, and no byte can be written, at offset 8 or above. An offset that nothing has written reads as no value (log
entry 4), so no cell can equal what an unlisted offset reads as. The core itself has no memory (R50). -/

namespace Sys2Proof.Machine

/-- An offset of DIG, which is "exactly 8 bytes", 0 to 7 (R50, R57). -/
abbrev DigOffset := Fin 8

/-- The cells of DIG, by rising offset. -/
abbrev Memory := List (DigOffset × Byte)

/-- The offsets of DIG in order, with no holes (R57: "DIG from 0 to 7"). -/
def digOffsets : List DigOffset := [0, 1, 2, 3, 4, 5, 6, 7]

/-- What an unlisted offset reads as: no value (log entry 4). -/
def unlisted : Option Byte := none

/-- The canonical form: offsets strictly rising, and no cell holds what an unlisted offset reads as. -/
abbrev Memory.wf (m : Memory) : Prop :=
  m.Pairwise (fun p q => p.1 < q.1) ∧ ∀ p ∈ m, some p.2 ≠ unlisted

/-- The byte at an offset; there is none from offset 8 on, since no cell stands there. -/
def Memory.read (m : Memory) (a : Nat) : Option Byte :=
  match m with
  | [] => unlisted
  | (k, b) :: rest => if k.val = a then some b else Memory.read rest a

/-- Write one byte, keeping the canonical form. -/
def Memory.write (m : Memory) (a : DigOffset) (b : Byte) : Memory :=
  match m with
  | [] => [(a, b)]
  | (k, c) :: rest =>
    if a < k then (a, b) :: (k, c) :: rest
    else if a = k then (a, b) :: rest
    else (k, c) :: Memory.write rest a b

/-- Write cells in the order given. -/
def Memory.writeCells (m : Memory) (cells : List (DigOffset × Byte)) : Memory :=
  match cells with
  | [] => m
  | (a, b) :: rest => Memory.writeCells (Memory.write m a b) rest

/-- `MemWrite(DIG, 0, 8, bytes)`: the 8 given bytes at offsets 0 to 7 in the order given (R51). -/
def Memory.writeDigest (m : Memory) (bytes : List Byte) : Memory :=
  Memory.writeCells m (digOffsets.zip bytes)

end Sys2Proof.Machine
end

