-- ==== Sys2Proof/Machine/Reference.lean ====
section
/-! DEFINITION. SipHashCD, the pure function the document defines (44_public_api.md R175), transcribed apart from
the command machine: no state, no commands, the rounds in the simultaneous form of R114. Beside it the same
function with its SipRound applications counted (70_reset_and_hazards.md R248). -/

namespace Sys2Proof.Machine

/-- Full-chunk words `le64(msg[8*i .. 8*i+7])` for i = 0 .. floor(L/8)-1 (R175). -/
def fullBlocks (msg : List Byte) : List Word :=
  (List.range (msg.length / 8)).map (fun i => le64 ((msg.drop (8 * i)).take 8))

/-- The trailing bytes `msg[8*n .. L-1]`, n = floor(L/8). -/
def trailing (msg : List Byte) : List Byte := msg.drop (8 * (msg.length / 8))

/-- The tail block word t (R175). -/
def tailBlock (msg : List Byte) : Word :=
  le64 (trailing msg) ||| (BitVec.ofNat 64 (msg.length % 256) <<< 56)

/-- One block of R175: `v3 ^= m; repeat c times SipRound; v0 ^= m`. -/
def refBlock (c : Byte) (x : Words) (m : Word) : Words :=
  let y := repeatTimes sipRoundSimultaneous c.toNat { x with v3 := x.v3 ^^^ m }
  { y with v0 := y.v0 ^^^ m }

/-- SipHashCD(c, d, key, msg) (R175), for the constants of a configuration. -/
def sipHashCD (cfg : Config) (c d : Byte) (key msg : List Byte) : Word :=
  let k0 := le64 (key.take 8)
  let k1 := le64 ((key.drop 8).take 8)
  let x : Words := ⟨cfg.c0 ^^^ k0, cfg.c1 ^^^ k1, cfg.c2 ^^^ k0, cfg.c3 ^^^ k1⟩
  let x := (fullBlocks msg).foldl (refBlock c) x
  let x := refBlock c x (tailBlock msg)
  let x := repeatTimes sipRoundSimultaneous d.toNat { x with v2 := x.v2 ^^^ 0xff#64 }
  x.v0 ^^^ x.v1 ^^^ x.v2 ^^^ x.v3

/-- Words with the number of SipRound applications made so far. -/
structure Worked where
  count : Nat
  words : Words
  deriving DecidableEq, Repr

/-- One counted round. -/
def countedRound (x : Worked) : Worked := ⟨x.count + 1, sipRoundSimultaneous x.words⟩

/-- One counted block. -/
def countedBlock (c : Byte) (x : Worked) (m : Word) : Worked :=
  let y := repeatTimes countedRound c.toNat { x with words := { x.words with v3 := x.words.v3 ^^^ m } }
  { y with words := { y.words with v0 := y.words.v0 ^^^ m } }

/-- SipHashCD with its rounds counted: the digest word and the number of SipRound applications (R248). -/
def sipHashCounted (cfg : Config) (c d : Byte) (key msg : List Byte) : Word × Nat :=
  let k0 := le64 (key.take 8)
  let k1 := le64 ((key.drop 8).take 8)
  let x : Worked := ⟨0, ⟨cfg.c0 ^^^ k0, cfg.c1 ^^^ k1, cfg.c2 ^^^ k0, cfg.c3 ^^^ k1⟩⟩
  let x := (fullBlocks msg).foldl (countedBlock c) x
  let x := countedBlock c x (tailBlock msg)
  let x := repeatTimes countedRound d.toNat { x with words := { x.words with v2 := x.words.v2 ^^^ 0xff#64 } }
  (x.words.v0 ^^^ x.words.v1 ^^^ x.words.v2 ^^^ x.words.v3, x.count)

end Sys2Proof.Machine
end

