-- ==== Sys2Proof/Machine/Boundary.lean ====
section
/-! DEFINITION. The boundary: the Public API layer as pseudo-operations over the command port (44_public_api.md
R176 to R183; 30_encoding.md R90). It has no encoding and no step of its own: each operation expands into
commands, presents them to the core and lets the core step through them. -/

namespace Sys2Proof.Machine

/-- A core with the caller's buffers beside it (20_memory.md R50): MSG and KEY are read-only byte sequences, DIG is
write-only. -/
structure System where
  core : State
  msg : List Byte
  key : List Byte
  dig : Memory
  deriving DecidableEq, Repr

/-- ABSS (R183): one ABSB per byte of the string, in order. -/
def abss (bytes : List Byte) : List Instr := bytes.map Instr.absb

/-- The commands of the expansion of HASH (R176): INIT, an ABSB for each byte `MemRead(MSG, a, 1)`, a = 0..L-1 (these
are the list `msg` itself: `Laws.memRead1_all`), FINAL. -/
def hashExpansion (k0 k1 : Word) (c d : Byte) (msg : List Byte) : List Instr :=
  Instr.init k0 k1 c d :: (abss msg ++ [Instr.final])

/-- The boundary's checks and the expansion (R176, R180): a key buffer that is not 16 bytes long raises
InvalidKeyLength before any command exists; a round count above 255 has no spelling and is refused
(93_implementation_defined.md U5). The key check comes first (R216; log entry 7). -/
def expandHash (call : HashCall) : Host.Outcome (List Instr) Fault Refusal :=
  if call.keyLengthOk then
    if call.countsOk then
      match memRead8 call.key 0, memRead8 call.key 8 with
      | some k0, some k1 =>
        .next (hashExpansion k0 k1 (BitVec.ofNat 8 call.c) (BitVec.ofNat 8 call.d) call.msg)
      | _, _ => .fault .invalidKeyLength
    else .refused .roundCountTooWide
  else .fault .invalidKeyLength

/-- The command words of a sequence of commands, as the host presents them. -/
def present (is : List Instr) : List PortEvent := is.map (fun i => PortEvent.command (encode i))

/-- The core after it has stepped through these commands, presented before anything else on its port. -/
def runCommands (is : List Instr) (s : State) : Host.Outcome State Fault Refusal :=
  Host.Core.run Sys2Proof.core is.length { s with inputs := present is ++ s.inputs }

/-- The data of the newest response (R87). -/
def lastData (s : State) : Word :=
  match s.responses.getLast? with
  | some r => respData r
  | none => 0#64

/-- The code of the newest response (R87). -/
def lastCode (s : State) : Byte :=
  match s.responses.getLast? with
  | some r => respCode r
  | none => 0#8

/-- ABSS as the host issues it (R183): the bytes one at a time, stopping at the first ABSB that faults. -/
def issueAbss (bytes : List Byte) (s : State) : Host.Outcome State Fault Refusal :=
  match bytes with
  | [] => .next s
  | b :: rest =>
    match runCommands [Instr.absb b] s with
    | .next t => if lastCode t = 0#8 then issueAbss rest t else .next t
    | .fault f => .fault f
    | .refused r => .refused r

/-- HASH on the system's buffers (R176): what the caller gets (the eight digest bytes, InvalidKeyLength, or a
refusal), and the system after the call. A call that is turned away leaves the system as it was (R180). -/
def System.hash (c d : Nat) (sys : System) : Host.Outcome (List Byte) Fault Refusal × System :=
  match expandHash ⟨sys.key, sys.msg, c, d⟩ with
  | .fault f => (.fault f, sys)
  | .refused r => (.refused r, sys)
  | .next is =>
    match runCommands is sys.core with
    | .fault f => (.fault f, sys)
    | .refused r => (.refused r, sys)
    | .next t =>
      let bytes := beBytes (lastData t)
      (.next bytes, { sys with core := t, dig := Memory.writeDigest sys.dig bytes })

/-- SIPHASH13 (R177): "shorthand for comp=1, fin=3". -/
def System.siphash13 (sys : System) : Host.Outcome (List Byte) Fault Refusal × System := sys.hash 1 3

/-- SIPHASH24 (R178): "shorthand for comp=2, fin=4". -/
def System.siphash24 (sys : System) : Host.Outcome (List Byte) Fault Refusal × System := sys.hash 2 4

end Sys2Proof.Machine
end

