-- ==== Sys2Proof/Safety.lean ====
section
/-! DEFINITION. What claims are stated in: the state invariants of 10_state.md R34, what a host can observe
(60_exceptions.md R222), and what a transaction is (45_sequencer.md R198). -/

namespace Sys2Proof

open Sys2Proof.Machine

/-- R34 item 2: PHASE ≠ FINALIZED implies DIGEST = 0. -/
abbrev DigestOnlyWhenFinalized (s : State) : Prop := s.phase ≠ .finalized → s.digest = 0#64

/-- R34 item 3: PHASE = IDLE implies V0 to V3, CR, FR, LEN and BUF are 0. -/
abbrev IdleIsClear (s : State) : Prop :=
  s.phase = .idle →
    s.v = ⟨0#64, 0#64, 0#64, 0#64⟩ ∧ s.cr = 0#8 ∧ s.fr = 0#8 ∧ s.len = 0#8 ∧ s.buf = 0#64

/-- R34 item 4: byte i of BUF is 0 for every i ≥ LEN[2:0]; BUF[63:56] = 0. -/
abbrev BufferClearAbove (s : State) : Prop :=
  (∀ i < 8, pending s.len ≤ i → byteOf s.buf i = 0#8) ∧ byteOf s.buf 7 = 0#8

/-- R34 item 5: PHASE = FINALIZED implies BUF = 0. -/
abbrev FinalizedBufferClear (s : State) : Prop := s.phase = .finalized → s.buf = 0#64

/-- R34 item 6: ERR is 0, 2 or 3. -/
abbrev ErrIsACommandFault (s : State) : Prop := s.err = 0#8 ∨ s.err = 2#8 ∨ s.err = 3#8

/-- The state invariants of R34. Item 1 (PHASE is 0, 1 or 2) is carried by the type `Phase` (R25) and stated of the
2-bit code. -/
abbrev Invariant (s : State) : Prop :=
  (s.phase.code = 0#2 ∨ s.phase.code = 1#2 ∨ s.phase.code = 2#2) ∧
  DigestOnlyWhenFinalized s ∧ IdleIsClear s ∧ BufferClearAbove s ∧ FinalizedBufferClear s ∧
  ErrIsACommandFault s

/-- Every register of R20 but ERR is the same in the two states. -/
abbrev SameButErr (s t : State) : Prop :=
  t.v = s.v ∧ t.cr = s.cr ∧ t.fr = s.fr ∧ t.len = s.len ∧ t.buf = s.buf ∧ t.phase = s.phase ∧
  t.digest = s.digest

/-- Every register of R20 is the same in the two states. -/
abbrev SameRegisters (s t : State) : Prop := SameButErr s t ∧ t.err = s.err

/-- What some command returns in the current PHASE (R222): LEN, CR, FR, PHASE and ERR always, DIGEST only in
FINALIZED; and the ports, which the host itself holds the other end of. V0 to V3 and BUF are not here. -/
abbrev SameVisible (s t : State) : Prop :=
  t.len = s.len ∧ t.cr = s.cr ∧ t.fr = s.fr ∧ t.phase = s.phase ∧ t.err = s.err ∧
  (s.phase = .finalized → t.digest = s.digest) ∧ t.inputs = s.inputs ∧ t.responses = s.responses

/-- The message bytes a command carries into the hash: one for ABSB, eight for ABSW in the order of R142. -/
def carried : Instr → List Byte
  | .absb b => [b]
  | .absw w => wordBytes w
  | .nop => []
  | .init _ _ _ _ => []
  | .final => []
  | .rdig => []
  | .rdst => []
  | .rst => []

/-- ABSB or ABSW. -/
def isAbsorb : Instr → Bool
  | .absb _ => true
  | .absw _ => true
  | .nop => false
  | .init _ _ _ _ => false
  | .final => false
  | .rdig => false
  | .rdst => false
  | .rst => false

/-- The message bytes carried by a presented word: those of its command, none for an Illegal word. -/
def carriedByWord (cw : CommandWord) : List Byte :=
  match decode cw with
  | .illegal _ => []
  | .ok i => carried i

/-- A word that neither starts, ends nor cancels a transaction: an Illegal word, or any command but INIT, FINAL and
RST (R198). -/
def staysInTransaction (cw : CommandWord) : Bool :=
  match decode cw with
  | .illegal _ => true
  | .ok (.init _ _ _ _) => false
  | .ok .final => false
  | .ok .rst => false
  | .ok _ => true

/-- The command sequence of a transaction (R198): INIT, absorb commands, FINAL. -/
def transaction (k0 k1 : Word) (c d : Byte) (absorbs : List Instr) : List Instr :=
  Instr.init k0 k1 c d :: (absorbs ++ [Instr.final])

/-- The commands of a sequence executed in order, each to completion before the next starts (20_memory.md R58). -/
def execAll (is : List Instr) (s : State) : Host.Outcome State Fault Refusal :=
  match is with
  | [] => .next s
  | i :: rest =>
    match exec i s with
    | .next t => execAll rest t
    | .fault f => .fault f
    | .refused r => .refused r

/-- A word that faults between INIT and FINAL: an Illegal word, or RDIG (R191). -/
def faultsInTransaction (cw : CommandWord) : Bool :=
  match decode cw with
  | .illegal _ => true
  | .ok i => !legal i .absorbing

/-- The oldest input is the reset input, alone or during a command (R240). -/
abbrev NextIsReset (s : State) : Prop :=
  ∃ rest, s.inputs = .resetInput :: rest ∨ ∃ cw, s.inputs = .resetDuring cw :: rest

/-- The oldest input is a command word that decodes to this instruction. -/
abbrev NextIs (i : Instr) (s : State) : Prop :=
  ∃ cw rest, s.inputs = .command cw :: rest ∧ decode cw = .ok i

/-- PHASE after a command, by the table of R190: "every other (phase, command) pair leaves PHASE unchanged". -/
def nextPhase (i : Instr) (p : Phase) : Phase :=
  match i, p with
  | .init _ _ _ _, _ => .absorbing
  | .final, .absorbing => .finalized
  | .final, .idle => .idle
  | .final, .finalized => .finalized
  | .rst, _ => .idle
  | .nop, p => p
  | .absb _, p => p
  | .absw _, p => p
  | .rdig, p => p
  | .rdst, p => p

/-- Some must-be-zero bit of the word's format is 1 (R81, R85): bits 143:8 with opcode 0x02, bits 143:64 with opcode
0x03, bits 143:0 with any other assigned opcode but 0x01. -/
abbrev MustBeZeroBitSet (cw : CommandWord) : Prop :=
  (cw.extractLsb' 144 8 = 0x02#8 ∧ cw.extractLsb' 8 136 ≠ 0#136) ∨
  (cw.extractLsb' 144 8 = 0x03#8 ∧ cw.extractLsb' 64 80 ≠ 0#80) ∨
  (cw.extractLsb' 144 8 ≠ 0x01#8 ∧ cw.extractLsb' 144 8 ≠ 0x02#8 ∧ cw.extractLsb' 144 8 ≠ 0x03#8 ∧
    cw.extractLsb' 0 144 ≠ 0#144)

/-- An IllegalCommand is the whole effect of this word, whatever the state (R213, R217): the word is consumed, ERR
takes code 3 if it was 0, the response is code 3 with data 0, and nothing else changes. -/
def RaisesIllegal (cw : CommandWord) : Prop :=
  ∀ (s : State) (rest : List PortEvent), s.inputs = .command cw :: rest →
    step s = .next { s with inputs := rest
                            err := if s.err = 0#8 then 3#8 else s.err
                            responses := s.responses ++ [response 3#8 0#64] }

/-- A SequenceError is the whole effect of this command in this state (R212, R217). -/
def RaisesSequence (i : Instr) (s : State) : Prop :=
  exec i s = .next { s with err := if s.err = 0#8 then 2#8 else s.err
                            responses := s.responses ++ [response 2#8 0#64] }

/-- The response word of a command that completed with no data (R87, R195). -/
abbrev okZero : ResponseWord := response 0#8 0#64

end Sys2Proof
end

