-- ==== Sys2Proof/Certificates/Slice0/Obligations.lean ====
section
/-! DEFINITION. The statements for the provers: one `def Obligations.<Name> : Prop` each, from the numbered rules of
spec/. A state is arbitrary unless a hypothesis says otherwise. -/

open Sys2Proof Sys2Proof.Machine

/-! ## Encoding (30_encoding.md) -/

/-- Some command words written out in 96_derived_vectors.md section 2.8, R82 (INIT) and R142 with program P3 of
95_test_vectors.md section 3 (ABSW) decode as written there. -/
def Obligations.DecodeOfSpecWords : Prop :=
  decode 0x00000000000000000000000000000000000000#152 = .ok .nop ∧
  decode 0x0104020f0e0d0c0b0a09080706050403020100#152 =
    .ok (.init 0x0706050403020100#64 0x0f0e0d0c0b0a0908#64 2#8 4#8) ∧
  decode 0x020000000000000000000000000000000000ff#152 = .ok (.absb 0xff#8) ∧
  decode 0x03000000000000000000003938373635343332#152 = .ok (.absw 0x3938373635343332#64) ∧
  decode 0x04000000000000000000000000000000000000#152 = .ok .final ∧
  decode 0x05000000000000000000000000000000000000#152 = .ok .rdig ∧
  decode 0x06000000000000000000000000000000000000#152 = .ok .rdst ∧
  decode 0x07000000000000000000000000000000000000#152 = .ok .rst ∧
  decode 0x00800000000000000000000000000000000000#152 = .illegal .mustBeZero ∧
  decode 0x02000000000000000000000000000000000100#152 = .illegal .mustBeZero ∧
  decode 0x08000000000000000000000000000000000000#152 = .illegal .reservedOpcode

/-- Decoding the encoding of any instruction gives it back, every operand at every value. -/
def Obligations.DecodeEncodeRoundTrip : Prop :=
  ∀ i : Instr, decode (encode i) = .ok i

/-- A legal word is the encoding of the instruction it decodes to: no bit of it is ignored (R85). -/
def Obligations.EncodeDecodeRoundTrip : Prop :=
  ∀ (cw : CommandWord) (i : Instr), decode cw = .ok i → encode i = cw

/-- R83, R82: the match and mask values select the command, with its operands taken as R82 says, and no word matches
two rows. -/
def Obligations.OpcodeMapSelectsCommand : Prop :=
  (∀ cw : CommandWord,
    (cw &&& 0xffffffffffffffffffffffffffffffffffffff#152 = 0x00000000000000000000000000000000000000#152 →
      decode cw = .ok .nop) ∧
    (cw &&& 0xff000000000000000000000000000000000000#152 = 0x01000000000000000000000000000000000000#152 →
      decode cw = .ok (.init (cw.extractLsb' 0 64) (cw.extractLsb' 64 64) (cw.extractLsb' 128 8)
        (cw.extractLsb' 136 8))) ∧
    (cw &&& 0xffffffffffffffffffffffffffffffffffff00#152 = 0x02000000000000000000000000000000000000#152 →
      decode cw = .ok (.absb (cw.extractLsb' 0 8))) ∧
    (cw &&& 0xffffffffffffffffffffff0000000000000000#152 = 0x03000000000000000000000000000000000000#152 →
      decode cw = .ok (.absw (cw.extractLsb' 0 64))) ∧
    (cw &&& 0xffffffffffffffffffffffffffffffffffffff#152 = 0x04000000000000000000000000000000000000#152 →
      decode cw = .ok .final) ∧
    (cw &&& 0xffffffffffffffffffffffffffffffffffffff#152 = 0x05000000000000000000000000000000000000#152 →
      decode cw = .ok .rdig) ∧
    (cw &&& 0xffffffffffffffffffffffffffffffffffffff#152 = 0x06000000000000000000000000000000000000#152 →
      decode cw = .ok .rdst) ∧
    (cw &&& 0xffffffffffffffffffffffffffffffffffffff#152 = 0x07000000000000000000000000000000000000#152 →
      decode cw = .ok .rst)) ∧
  (∀ (cw : CommandWord) (r₁ r₂ : OpcodeRow), r₁ ∈ opcodeRows → r₂ ∈ opcodeRows →
    r₁.selectedBy cw = true → r₂.selectedBy cw = true → r₁ = r₂)

/-- R84, R85: a word is legal exactly when it matches a row of R83, and every other word (a reserved opcode, a
must-be-zero bit set) raises IllegalCommand in every state; every word with opcode 0x01 is legal. -/
def Obligations.LegalExactlyWhenRowMatches : Prop :=
  (∀ cw : CommandWord, (∃ i, decode cw = .ok i) ↔ cw.wellFormed = true) ∧
  (∀ cw : CommandWord, cw.wellFormed = false → RaisesIllegal cw) ∧
  (∀ cw : CommandWord, 0x07#8 < cw.extractLsb' 144 8 → RaisesIllegal cw) ∧
  (∀ cw : CommandWord, cw.extractLsb' 144 8 = 0x01#8 → ∃ i, decode cw = .ok i)

/-- R91: the order of decoding: a reserved opcode, then a must-be-zero bit, then the command, with no bit of the word
dropped; a word that is both malformed and out of sequence reports IllegalCommand. -/
def Obligations.DecodeOrder : Prop :=
  (∀ cw : CommandWord, 0x07#8 < cw.extractLsb' 144 8 → decode cw = .illegal .reservedOpcode) ∧
  (∀ cw : CommandWord, ¬ 0x07#8 < cw.extractLsb' 144 8 → MustBeZeroBitSet cw → decode cw = .illegal .mustBeZero) ∧
  (∀ cw : CommandWord, ¬ 0x07#8 < cw.extractLsb' 144 8 → ¬ MustBeZeroBitSet cw →
    ∃ i, decode cw = .ok i ∧ opcodeOf i = cw.extractLsb' 144 8 ∧ encode i = cw) ∧
  (∀ (cw : CommandWord) (why : IllegalCause), decode cw = .illegal why → RaisesIllegal cw)

/-- R87: the fields of a response word. -/
def Obligations.ResponseLayout : Prop :=
  ∀ (code : Byte) (data : Word),
    (response code data).extractLsb' 64 8 = code ∧ (response code data).extractLsb' 0 64 = data

/-! ## Arithmetic and the Permutation (40_permutation.md) -/

/-- R110: ADD64 is `(a + b) mod 2^64`, with the corner cases of the rule. -/
def Obligations.AddWraps : Prop :=
  (∀ a b : Word, (add64 a b).toNat = (a.toNat + b.toNat) % 2 ^ 64) ∧
  (∀ a : Word, add64 a 0#64 = a) ∧
  add64 0xffffffffffffffff#64 1#64 = 0#64 ∧
  add64 0xffffffffffffffff#64 0xffffffffffffffff#64 = 0xfffffffffffffffe#64 ∧
  add64 0x8000000000000000#64 0x8000000000000000#64 = 0#64

/-- R111: for the five amounts that occur, bit i of ROTL64 is bit `(i - n) mod 64` of its operand, and a rotation by 32
is its own inverse. -/
def Obligations.RotlMovesBits : Prop :=
  (∀ a : Word, ∀ n ∈ [13, 16, 17, 21, 32], ∀ i < 64,
    (rotl64 a n).getLsbD i = a.getLsbD ((i + (64 - n)) % 64)) ∧
  (∀ a : Word, rotl64 (rotl64 a 32) 32 = a)

/-- R112: XOR64 bit by bit, with its laws. -/
def Obligations.XorBitwise : Prop :=
  (∀ (a b : Word), ∀ i < 64, (xor64 a b).getLsbD i = (a.getLsbD i != b.getLsbD i)) ∧
  (∀ a : Word, xor64 a 0#64 = a ∧ xor64 a a = 0#64) ∧
  (∀ a b : Word, xor64 (xor64 a b) b = a ∧ xor64 a b = xor64 b a) ∧
  (∀ a b c : Word, xor64 (xor64 a b) c = xor64 a (xor64 b c))

/-- R114: the fourteen steps of R113 are the simultaneous assignment. -/
def Obligations.SipRoundIsSimultaneous : Prop :=
  ∀ x : Words, sipRound x = sipRoundSimultaneous x

/-- R116 items 1 and 2: SIPROUND is a bijection on the 256-bit state, and the all-zero state is a fixed point. -/
def Obligations.SipRoundIsBijection : Prop :=
  Function.Bijective sipRound ∧ sipRound ⟨0#64, 0#64, 0#64, 0#64⟩ = ⟨0#64, 0#64, 0#64, 0#64⟩

/-- R115: ROUNDS(n) is n applications of SIPROUND in sequence; for n = 0 the words are unchanged. -/
def Obligations.RoundsRepeatSipRound : Prop :=
  (∀ x : Words, rounds 0#8 x = x) ∧
  (∀ (n : Byte) (x : Words), n ≠ 255#8 → rounds (n + 1#8) x = sipRound (rounds n x))

/-! ## The Key Schedule (41_key_schedule.md) -/

/-- R130: the key words are little-endian, they are the fields of the INIT command word, and every key is legal. -/
def Obligations.KeyWordsLittleEndian : Prop :=
  (∀ key : List Byte, key.length = 16 → ∀ i < 8,
    some ((le64 (key.take 8)).extractLsb' (8 * i) 8) = key[i]? ∧
    some ((le64 (key.drop 8)).extractLsb' (8 * i) 8) = key[8 + i]?) ∧
  (∀ (k0 k1 : Word) (c d : Byte),
    (encode (.init k0 k1 c d)).extractLsb' 0 64 = k0 ∧ (encode (.init k0 k1 c d)).extractLsb' 64 64 = k1 ∧
    decode (encode (.init k0 k1 c d)) = .ok (.init k0 k1 c d))

/-- R131, R132: INIT in any phase: the words from the key, CR, FR, LEN, BUF, DIGEST and PHASE written, ERR kept,
response code 0 and data 0; every word with opcode 0x01 is a well-formed INIT. -/
def Obligations.InitBuildsState : Prop :=
  (∀ (k0 k1 : Word) (c d : Byte) (s : State),
    exec (.init k0 k1 c d) s = .next
      { v := ⟨Config.standard.c0 ^^^ k0, Config.standard.c1 ^^^ k1,
              Config.standard.c2 ^^^ k0, Config.standard.c3 ^^^ k1⟩
        cr := c
        fr := d
        len := 0#8
        buf := 0#64
        phase := .absorbing
        digest := 0#64
        err := s.err
        inputs := s.inputs
        responses := s.responses ++ [okZero] }) ∧
  (∀ cw : CommandWord, cw.extractLsb' 144 8 = 0x01#8 →
    decode cw = .ok (.init (cw.extractLsb' 0 64) (cw.extractLsb' 64 64) (cw.extractLsb' 128 8)
      (cw.extractLsb' 136 8)))

/-- R181, R132 corner case 5: INIT does not depend on the registers before it but ERR. -/
def Obligations.InitForgetsHistory : Prop :=
  ∀ (k0 k1 : Word) (c d : Byte) (s₁ s₂ : State),
    s₁.err = s₂.err → s₁.inputs = s₂.inputs → s₁.responses = s₂.responses →
    exec (.init k0 k1 c d) s₁ = exec (.init k0 k1 c d) s₂

/-! ## The Block Processor (42_block_processor.md) -/

/-- R140: COMPRESS(m), with the corner cases CR = 0 and m = 0. -/
def Obligations.CompressStep : Prop :=
  (∀ (cr : Byte) (m : Word) (x : Words),
    compress cr m x =
      { rounds cr { x with v3 := x.v3 ^^^ m } with
        v0 := (rounds cr { x with v3 := x.v3 ^^^ m }).v0 ^^^ m }) ∧
  (∀ (m : Word) (x : Words), compress 0#8 m x = { x with v0 := x.v0 ^^^ m, v3 := x.v3 ^^^ m }) ∧
  (∀ (cr : Byte) (x : Words), compress cr 0#64 x = rounds cr x)

/-- R141: ABSB in ABSORBING places the byte at position LEN[2:0] of BUF and counts it; the byte that completes a block
compresses the new BUF and clears it; in the other phases it raises SequenceError; with any of bits 143:8 set it raises
IllegalCommand. Nothing else changes. -/
def Obligations.AbsbAbsorbsOneByte : Prop :=
  (∀ (b : Byte) (s : State), s.phase = .absorbing → s.len.toNat % 8 < 7 →
    exec (.absb b) s = .next
      { s with buf := s.buf ||| (b.setWidth 64 <<< (8 * (s.len.toNat % 8)))
               len := s.len + 1#8
               responses := s.responses ++ [okZero] }) ∧
  (∀ (b : Byte) (s : State), s.phase = .absorbing → s.len.toNat % 8 = 7 →
    exec (.absb b) s = .next
      { s with v := compress s.cr (s.buf ||| (b.setWidth 64 <<< 56)) s.v
               buf := 0#64
               len := s.len + 1#8
               responses := s.responses ++ [okZero] }) ∧
  (∀ (b : Byte) (s : State), s.phase ≠ .absorbing → RaisesSequence (.absb b) s) ∧
  (∀ cw : CommandWord, cw.extractLsb' 144 8 = 0x02#8 →
    (cw.extractLsb' 8 136 = 0#136 → decode cw = .ok (.absb (cw.extractLsb' 0 8))) ∧
    (cw.extractLsb' 8 136 ≠ 0#136 → RaisesIllegal cw))

/-- R142: ABSW in ABSORBING is eight ABSB with the bytes of the word in order, as one step with one response; where BUF
is clear above its pending bytes (R34 item 4) it is the closed form, with exactly one COMPRESS at every alignment; in the
other phases it raises SequenceError; with any of bits 143:64 set it raises IllegalCommand. -/
def Obligations.AbswIsEightAbsb : Prop :=
  (∀ (w : Word) (s : State), s.phase = .absorbing →
    ∃ t, execAll [.absb (w.extractLsb' 0 8), .absb (w.extractLsb' 8 8), .absb (w.extractLsb' 16 8),
                  .absb (w.extractLsb' 24 8), .absb (w.extractLsb' 32 8), .absb (w.extractLsb' 40 8),
                  .absb (w.extractLsb' 48 8), .absb (w.extractLsb' 56 8)] s = .next t ∧
      exec (.absw w) s = .next { t with responses := s.responses ++ [okZero] }) ∧
  (∀ (w : Word) (s : State), s.phase = .absorbing → BufferClearAbove s →
    (s.len.toNat % 8 = 0 →
      exec (.absw w) s = .next
        { s with v := compress s.cr w s.v
                 buf := 0#64
                 len := s.len + 8#8
                 responses := s.responses ++ [okZero] }) ∧
    (s.len.toNat % 8 ≠ 0 →
      exec (.absw w) s = .next
        { s with v := compress s.cr (s.buf ||| (w <<< (8 * (s.len.toNat % 8)))) s.v
                 buf := w >>> (64 - 8 * (s.len.toNat % 8))
                 len := s.len + 8#8
                 responses := s.responses ++ [okZero] })) ∧
  (∀ (w : Word) (s : State), s.phase ≠ .absorbing → RaisesSequence (.absw w) s) ∧
  (∀ cw : CommandWord, cw.extractLsb' 144 8 = 0x03#8 →
    (cw.extractLsb' 64 80 = 0#80 → decode cw = .ok (.absw (cw.extractLsb' 0 64))) ∧
    (cw.extractLsb' 64 80 ≠ 0#80 → RaisesIllegal cw))

/-- R143: TAILWORD is BUF with the length byte in bits 63:56: the pending bytes below, zero between. -/
def Obligations.TailWordLayout : Prop :=
  (∀ (buf : Word) (len : Byte), tailWord buf len = buf ||| (len.setWidth 64 <<< 56)) ∧
  (∀ s : State, BufferClearAbove s →
    tailWord s.buf s.len = s.len ++ s.buf.extractLsb' 0 56 ∧
    (∀ i < 7, i < s.len.toNat % 8 → byteOf (tailWord s.buf s.len) i = byteOf s.buf i) ∧
    (∀ i < 7, s.len.toNat % 8 ≤ i → byteOf (tailWord s.buf s.len) i = 0#8) ∧
    byteOf (tailWord s.buf s.len) 7 = s.len)

/-- R148: what the chunker computes for a whole message, however its bytes are grouped into ABSB and ABSW. -/
def Obligations.ChunkerWholeMessage : Prop :=
  ∀ (k0 k1 : Word) (c d : Byte) (absorbs : List Instr) (s : State),
    (∀ i ∈ absorbs, isAbsorb i = true) →
    ∃ t, execAll (.init k0 k1 c d :: absorbs) s = .next t ∧
      t.v = (fullBlocks (absorbs.flatMap carried)).foldl (fun x m => compress c m x)
              (keyInit Config.standard k0 k1) ∧
      t.len = BitVec.ofNat 8 (absorbs.flatMap carried).length ∧
      t.buf = le64 (trailing (absorbs.flatMap carried)) ∧
      t.cr = c ∧ t.fr = d ∧ t.phase = .absorbing ∧ t.digest = 0#64 ∧ t.err = s.err ∧ t.inputs = s.inputs ∧
      t.responses = s.responses ++ List.replicate (absorbs.length + 1) okZero

/-! ## The Finalizer (43_finalizer.md) -/

/-- R160, R161, R163: FINAL in ABSORBING absorbs the tail block, XORs 0xff into V2, applies FR rounds, folds the words
into DIGEST, clears BUF, and responds with the digest; in the other phases it raises SequenceError; with any of bits
143:0 set it raises IllegalCommand. LEN, CR, FR and ERR are unchanged. -/
def Obligations.FinalProducesDigest : Prop :=
  (∀ (s : State) (y z : Words), s.phase = .absorbing →
    y = compress s.cr (s.buf ||| (s.len.setWidth 64 <<< 56)) s.v →
    z = rounds s.fr { y with v2 := y.v2 ^^^ 0x00000000000000ff#64 } →
    exec .final s = .next
      { s with v := z
               buf := 0#64
               digest := z.v0 ^^^ z.v1 ^^^ z.v2 ^^^ z.v3
               phase := .finalized
               responses := s.responses ++ [response 0#8 (z.v0 ^^^ z.v1 ^^^ z.v2 ^^^ z.v3)] }) ∧
  (∀ s : State, s.phase ≠ .absorbing → RaisesSequence .final s) ∧
  (∀ cw : CommandWord, cw.extractLsb' 144 8 = 0x04#8 →
    (cw.extractLsb' 0 144 = 0#144 → decode cw = .ok .final) ∧
    (cw.extractLsb' 0 144 ≠ 0#144 → RaisesIllegal cw))

/-- R164: RDIG in FINALIZED responds DIGEST and changes no register; in the other phases it raises SequenceError; with
any of bits 143:0 set it raises IllegalCommand. -/
def Obligations.RdigReadsDigest : Prop :=
  (∀ s : State, s.phase = .finalized →
    exec .rdig s = .next { s with responses := s.responses ++ [response 0#8 s.digest] }) ∧
  (∀ s : State, s.phase ≠ .finalized → RaisesSequence .rdig s) ∧
  (∀ cw : CommandWord, cw.extractLsb' 144 8 = 0x05#8 →
    (cw.extractLsb' 0 144 = 0#144 → decode cw = .ok .rdig) ∧
    (cw.extractLsb' 0 144 ≠ 0#144 → RaisesIllegal cw))

/-- R162: digest byte j is bits 63-8j to 56-8j of the word, so reading the bytes from the last to the first as a
little-endian word gives the word back. -/
def Obligations.DigestBytesBigEndian : Prop :=
  ∀ w : Word,
    (beBytes w).length = 8 ∧
    (∀ j < 8, (beBytes w)[j]? = some (w.extractLsb' (56 - 8 * j) 8)) ∧
    le64 (beBytes w).reverse = w

/-- R163 corner case 2: with both round counts 0 the digest is C0 ^ C1 ^ C2 ^ C3 ^ 0xff for every key and message. -/
def Obligations.ZeroRoundsDigestIsConstant : Prop :=
  (∀ (cfg : Config) (key msg : List Byte),
    sipHashCD cfg 0#8 0#8 key msg = cfg.c0 ^^^ cfg.c1 ^^^ cfg.c2 ^^^ cfg.c3 ^^^ 0xff#64) ∧
  (∀ (k0 k1 : Word) (absorbs : List Instr) (s : State), (∀ i ∈ absorbs, isAbsorb i = true) →
    ∃ t, execAll (transaction k0 k1 0#8 0#8 absorbs) s = .next t ∧ t.digest = 0x0f1c1c0309061df5#64)

/-- R248, of the pure function SipHashCD of R175 (not of the command machine): it applies SipRound exactly `c * (floor(L/8) + 1) + d` times. -/
def Obligations.RoundsOfReferenceFunction : Prop :=
  ∀ (cfg : Config) (c d : Byte) (key msg : List Byte),
    sipHashCounted cfg c d key msg =
      (sipHashCD cfg c d key msg, c.toNat * (msg.length / 8 + 1) + d.toNat)

/-! ## The one-shot operations (44_public_api.md) -/

/-- R179, R198: from every start state, INIT, absorb commands for the message, FINAL, presented on the command port,
respond to FINAL with SipHashCD and record no fault. -/
def Obligations.TransactionComputesSipHash : Prop :=
  ∀ (c d : Byte) (key : List Byte) (absorbs : List Instr) (s : State),
    key.length = 16 → (∀ i ∈ absorbs, isAbsorb i = true) →
    ∃ t, runCommands (transaction (le64 (key.take 8)) (le64 (key.drop 8)) c d absorbs) s = .next t ∧
      t.digest = sipHashCD Config.standard c d key (absorbs.flatMap carried) ∧
      t.phase = .finalized ∧ t.err = s.err ∧ t.inputs = s.inputs ∧
      t.responses = s.responses ++ List.replicate (absorbs.length + 1) okZero ++
        [response 0#8 (sipHashCD Config.standard c d key (absorbs.flatMap carried))]

/-- R218: words that fault, and commands that neither start, end nor cancel it, do not spoil a transaction: the digest is
that of the bytes its legal absorb commands carried; ERR tells that a command was refused. -/
def Obligations.FaultsDoNotSpoilTransaction : Prop :=
  ∀ (c d : Byte) (key : List Byte) (words : List CommandWord) (s : State) (rest : List PortEvent),
    key.length = 16 → (∀ w ∈ words, staysInTransaction w = true) →
    s.inputs = .command (encode (.init (le64 (key.take 8)) (le64 (key.drop 8)) c d)) ::
      (words.map PortEvent.command ++ .command (encode .final) :: rest) →
    ∃ t : State, Host.Core.run Sys2Proof.core (words.length + 2) s = .next t ∧
      t.inputs = rest ∧ t.phase = .finalized ∧
      t.responses.getLast? =
        some (response 0#8 (sipHashCD Config.standard c d key (words.flatMap carriedByWord))) ∧
      ((∃ w ∈ words, faultsInTransaction w = true) → t.err ≠ 0#8)

/-- R176: HASH with a 16-byte key and counts of 8 bits issues INIT, an ABSB for each message byte and FINAL, returns the
digest bytes and writes them to DIG offsets 0 to 7, byte 0 first; DIG has no byte beyond them (R50); MSG and KEY are unchanged. A key of
another length, with counts of 8 bits, raises InvalidKeyLength with no command issued. -/
def Obligations.HashWritesDigest : Prop :=
  (∀ (c d : Nat) (sys : System) (digest : Word), sys.key.length = 16 → c < 256 → d < 256 →
    digest = sipHashCD Config.standard (BitVec.ofNat 8 c) (BitVec.ofNat 8 d) sys.key sys.msg →
    expandHash ⟨sys.key, sys.msg, c, d⟩ = .next
      (.init (le64 (sys.key.take 8)) (le64 (sys.key.drop 8)) (BitVec.ofNat 8 c) (BitVec.ofNat 8 d) ::
        (sys.msg.map Instr.absb ++ [.final])) ∧
    ∃ t : System, sys.hash c d = (.next (beBytes digest), t) ∧
      t.msg = sys.msg ∧ t.key = sys.key ∧ t.core.digest = digest ∧ t.core.phase = .finalized ∧
      t.core.err = sys.core.err ∧ t.core.inputs = sys.core.inputs ∧
      (∀ j < 8, t.dig.read j = some (digest.extractLsb' (56 - 8 * j) 8)) ∧
      (∀ a, 8 ≤ a → t.dig.read a = none)) ∧
  (∀ (c d : Nat) (sys : System), sys.key.length ≠ 16 → c < 256 → d < 256 →
    expandHash ⟨sys.key, sys.msg, c, d⟩ = .fault .invalidKeyLength ∧
    sys.hash c d = (.fault .invalidKeyLength, sys))

/-- R177, R178: SIPHASH13 and SIPHASH24 are HASH with counts (1, 3) and (2, 4), whatever the key: with a 16-byte key they
return those digest bytes, with a key of another length they raise InvalidKeyLength and leave the system as it was. -/
def Obligations.ShorthandDigests : Prop :=
  (∀ sys : System, sys.siphash13 = sys.hash 1 3 ∧ sys.siphash24 = sys.hash 2 4) ∧
  (∀ sys : System, sys.key.length = 16 →
    sys.siphash13.1 = .next (beBytes (sipHashCD Config.standard 1#8 3#8 sys.key sys.msg)) ∧
    sys.siphash24.1 = .next (beBytes (sipHashCD Config.standard 2#8 4#8 sys.key sys.msg))) ∧
  (∀ sys : System, sys.key.length ≠ 16 →
    sys.siphash13 = (.fault .invalidKeyLength, sys) ∧ sys.siphash24 = (.fault .invalidKeyLength, sys))

/-- R180, R211: a key buffer that is not 16 bytes long, with counts of 8 bits, raises InvalidKeyLength, code 1, and leaves the core (ERR
included) and DIG as they were; a 16-byte key of any content is accepted. -/
def Obligations.WrongKeyLengthTouchesNothing : Prop :=
  (∀ (c d : Nat) (sys : System), sys.key.length ≠ 16 → c < 256 → d < 256 →
    sys.hash c d = (.fault .invalidKeyLength, sys)) ∧
  Fault.invalidKeyLength.exc.code = 1#8 ∧
  (∀ (c d : Nat) (sys : System), sys.key.length = 16 → c < 256 → d < 256 →
    ∃ bytes, (sys.hash c d).1 = .next bytes)

/-- 93_implementation_defined.md U5: a round count above 255 is refused, not truncated; the system is as it was. The
model's choice (log entry 7): the key length is checked first, so with a key of another length the call raises
InvalidKeyLength, with no command issued, whatever the counts. -/
def Obligations.WideRoundCountRefused : Prop :=
  (∀ (c d : Nat) (sys : System), sys.key.length = 16 → 255 < c ∨ 255 < d →
    sys.hash c d = (.refused .roundCountTooWide, sys)) ∧
  (∀ (c d : Nat) (sys : System), sys.key.length ≠ 16 →
    expandHash ⟨sys.key, sys.msg, c, d⟩ = .fault .invalidKeyLength ∧
    sys.hash c d = (.fault .invalidKeyLength, sys))

/-- R183: ABSS absorbs its bytes in order; on a core where ABSB faults it stops at the first. -/
def Obligations.AbssAbsorbsOrStops : Prop :=
  (∀ (bytes : List Byte) (s : State), s.phase = .absorbing →
    issueAbss bytes s = execAll (bytes.map Instr.absb) s) ∧
  (∀ (b : Byte) (bytes : List Byte) (s : State), s.phase ≠ .absorbing →
    issueAbss (b :: bytes) s = exec (.absb b) s) ∧
  (∀ s : State, issueAbss [] s = .next s)

/-- R50, R51, R57: no call changes MSG or KEY; DIG keeps its canonical form, and before and after the call it has no byte
outside offsets 0 to 7. -/
def Obligations.HashKeepsBuffers : Prop :=
  ∀ (c d : Nat) (sys : System), sys.dig.wf →
    (sys.hash c d).2.msg = sys.msg ∧ (sys.hash c d).2.key = sys.key ∧ (sys.hash c d).2.dig.wf ∧
    (∀ a, 8 ≤ a → sys.dig.read a = none ∧ (sys.hash c d).2.dig.read a = none)

/-! ## The sequencer (45_sequencer.md) -/

/-- R192: NOP responds 0 and changes no register; it is the all-zero word; with any of bits 143:0 set it raises
IllegalCommand. -/
def Obligations.NopChangesNothing : Prop :=
  (∀ s : State, exec .nop s = .next { s with responses := s.responses ++ [okZero] }) ∧
  decode 0x00000000000000000000000000000000000000#152 = .ok .nop ∧
  (∀ cw : CommandWord, cw.extractLsb' 144 8 = 0x00#8 → cw.extractLsb' 0 144 ≠ 0#144 → RaisesIllegal cw)

/-- R193: RDST responds STATUS in every phase and changes no register, ERR included; with any of bits 143:0 set it
raises IllegalCommand. -/
def Obligations.RdstReturnsStatus : Prop :=
  (∀ s : State, exec .rdst s = .next { s with responses := s.responses ++ [response 0#8 (status s)] }) ∧
  (∀ cw : CommandWord, cw.extractLsb' 144 8 = 0x06#8 →
    (cw.extractLsb' 0 144 = 0#144 → decode cw = .ok .rdst) ∧
    (cw.extractLsb' 0 144 ≠ 0#144 → RaisesIllegal cw))

/-- R28: the fields of STATUS; the reserved bits read 0. -/
def Obligations.StatusLayout : Prop :=
  ∀ s : State,
    (status s).extractLsb' 0 2 = s.phase.code ∧
    (status s).extractLsb' 2 6 = 0#6 ∧
    (status s).extractLsb' 8 8 = s.len ∧
    (status s).extractLsb' 16 8 = s.cr ∧
    (status s).extractLsb' 24 8 = s.fr ∧
    (status s).extractLsb' 32 8 = s.err ∧
    (status s).extractLsb' 40 24 = 0#24 ∧
    (Phase.idle.code = 0#2 ∧ Phase.absorbing.code = 1#2 ∧ Phase.finalized.code = 2#2)

/-- R194: RST in every phase resets every register and responds 0; it is the only command that clears ERR and the only
one that returns the core to IDLE; with any of bits 143:0 set it raises IllegalCommand. -/
def Obligations.RstResetsRegisters : Prop :=
  (∀ s : State, exec .rst s = .next
    { v := ⟨0#64, 0#64, 0#64, 0#64⟩, cr := 0#8, fr := 0#8, len := 0#8, buf := 0#64, phase := .idle
      digest := 0#64, err := 0#8, inputs := s.inputs, responses := s.responses ++ [okZero] }) ∧
  (∀ (i : Instr) (s t : State), exec i s = .next t → s.err ≠ 0#8 → t.err = 0#8 → i = .rst) ∧
  (∀ (i : Instr) (s t : State), exec i s = .next t → s.phase ≠ .idle → t.phase = .idle → i = .rst) ∧
  (∀ cw : CommandWord, cw.extractLsb' 144 8 = 0x07#8 →
    (cw.extractLsb' 0 144 = 0#144 → decode cw = .ok .rst) ∧
    (cw.extractLsb' 0 144 ≠ 0#144 → RaisesIllegal cw))

/-- R190: PHASE after every command, after an Illegal word and after the reset input. -/
def Obligations.PhaseTransitions : Prop :=
  (∀ (i : Instr) (s : State), ∃ t, exec i s = .next t ∧ t.phase = nextPhase i s.phase) ∧
  (∀ (cw : CommandWord) (why : IllegalCause) (s : State) (rest : List PortEvent),
    decode cw = .illegal why → s.inputs = .command cw :: rest →
    ∃ t, step s = .next t ∧ t.phase = s.phase) ∧
  (∀ s : State, NextIsReset s → ∃ t, step s = .next t ∧ t.phase = .idle)

/-- R191, R212: which command raises SequenceError in which phase; every other pair completes with code 0. -/
def Obligations.LegalityTable : Prop :=
  ∀ (i : Instr) (s : State), ∃ (t : State) (r : ResponseWord),
    exec i s = .next t ∧ t.responses = s.responses ++ [r] ∧
    (respCode r = 0#8 ∨ respCode r = 2#8) ∧
    (respCode r = 2#8 ↔
      ((isAbsorb i = true ∨ i = .final) ∧ s.phase ≠ .absorbing) ∨ (i = .rdig ∧ s.phase ≠ .finalized))

/-- R195, R210: every command word on the port is answered by exactly one response: code 0 with its data, or code 2 or 3
with data 0; without a command there is no response. -/
def Obligations.OneResponsePerCommand : Prop :=
  (∀ (s : State) (cw : CommandWord) (rest : List PortEvent), s.inputs = .command cw :: rest →
    ∃ (t : State) (r : ResponseWord), step s = .next t ∧ t.inputs = rest ∧ t.responses = s.responses ++ [r] ∧
      (respCode r = 0#8 ∨ respCode r = 2#8 ∨ respCode r = 3#8) ∧
      (respCode r ≠ 0#8 → respData r = 0#64) ∧
      (respCode r = 0#8 → ∃ i, decode cw = .ok i ∧
        respData r = match i with
          | .nop => 0#64
          | .init _ _ _ _ => 0#64
          | .absb _ => 0#64
          | .absw _ => 0#64
          | .final => t.digest
          | .rdig => t.digest
          | .rdst => status s
          | .rst => 0#64)) ∧
  (∀ s : State, s.inputs = [] ∨ NextIsReset s → ∃ t, step s = .next t ∧ t.responses = s.responses)

/-- R196, R12: a step runs the decoded command: the oldest word is taken from the port and executed; an Illegal word
raises IllegalCommand. With nothing presented the core holds its state (log entry 6, the model's reading of R227). -/
def Obligations.StepRunsDecodedInstruction : Prop :=
  (∀ (s : State) (cw : CommandWord) (rest : List PortEvent) (i : Instr),
    s.inputs = .command cw :: rest → decode cw = .ok i → step s = exec i { s with inputs := rest }) ∧
  (∀ (s : State) (cw : CommandWord) (rest : List PortEvent) (why : IllegalCause),
    s.inputs = .command cw :: rest → decode cw = .illegal why →
    step s = .next (raise .illegalCommand { s with inputs := rest })) ∧
  (∀ s : State, s.inputs = [] → step s = .next s)

/-! ## Exceptions (60_exceptions.md) -/

/-- R217: a command that is answered with a nonzero code changes nothing but ERR, which takes the code if it was 0. -/
def Obligations.FaultEntry : Prop :=
  ∀ (s t : State) (cw : CommandWord) (rest : List PortEvent) (r : ResponseWord),
    s.inputs = .command cw :: rest → step s = .next t → t.responses = s.responses ++ [r] → respCode r ≠ 0#8 →
    t = { s with inputs := rest
                 err := if s.err = 0#8 then respCode r else s.err
                 responses := s.responses ++ [response (respCode r) 0#64] }

/-- R27, R219: ERR keeps the first code until RST or the reset input clears it. -/
def Obligations.ErrIsSticky : Prop :=
  ∀ s : State, ∃ t, step s = .next t ∧
    (t.err = s.err ∨ (s.err = 0#8 ∧ (t.err = 2#8 ∨ t.err = 3#8)) ∨
      (t.err = 0#8 ∧ (NextIsReset s ∨ NextIs .rst s)))

/-- R216: an Illegal word reports IllegalCommand in every phase; a wrong key length (with counts of 8 bits) is reported
before any command; the reset input wins over a command in progress: every register takes its reset value and that command has no response. -/
def Obligations.ExceptionPriority : Prop :=
  (∀ (cw : CommandWord) (why : IllegalCause), decode cw = .illegal why → RaisesIllegal cw) ∧
  (∀ call : HashCall, call.key.length ≠ 16 → call.countsOk = true → expandHash call = .fault .invalidKeyLength) ∧
  (∀ (s : State) (cw : CommandWord) (rest : List PortEvent), s.inputs = .resetDuring cw :: rest →
    ∃ t, step s = .next t ∧ SameRegisters State.reset t ∧ t.responses = s.responses)

/-- R12, R214, R249: a step always completes: it never faults and is never refused. -/
def Obligations.StepIsTotal : Prop :=
  ∀ s : State, ∃ t, step s = .next t

/-! ## Reset (10_state.md R33, 70_reset_and_hazards.md R240) -/

/-- R33: the reset values; RDST immediately after reset returns 0. -/
def Obligations.ResetValues : Prop :=
  State.reset.v = ⟨0#64, 0#64, 0#64, 0#64⟩ ∧ State.reset.cr = 0#8 ∧ State.reset.fr = 0#8 ∧
  State.reset.len = 0#8 ∧ State.reset.buf = 0#64 ∧ State.reset.phase = .idle ∧
  State.reset.digest = 0#64 ∧ State.reset.err = 0#8 ∧
  exec .rdst State.reset = .next { State.reset with responses := [response 0#8 0#64] }

/-- R240: the reset input, alone or during a command, leaves every register at its reset value and no response; RST
leaves the same registers and one response. -/
def Obligations.ResetInputAndRstAgree : Prop :=
  (∀ s : State, NextIsReset s →
    ∃ t, step s = .next t ∧ SameRegisters State.reset t ∧ t.responses = s.responses) ∧
  (∀ s : State, exec .rst s =
    .next { State.reset with inputs := s.inputs, responses := s.responses ++ [okZero] })

/-! ## Invariants and whole-machine rules -/

/-- R34: the invariants hold after reset. -/
def Obligations.ResetSatisfiesInvariant : Prop := Invariant State.reset

/-- R34: the invariants hold after reset and are kept by every step, faulting or not. -/
def Obligations.StepKeepsInvariant : Prop :=
  Invariant State.reset ∧ ∀ s t : State, Invariant s → step s = .next t → Invariant t

/-- R20, the column "written by": which commands may change which register; and R20's last sentence, ABSB and ABSW
write the words only on the command that completes a block. -/
def Obligations.RegisterWriters : Prop :=
  ∀ (i : Instr) (s : State), ∃ t, exec i s = .next t ∧
    (t.v ≠ s.v → (∃ k0 k1 c d, i = .init k0 k1 c d) ∨ isAbsorb i = true ∨ i = .final ∨ i = .rst) ∧
    (t.cr ≠ s.cr ∨ t.fr ≠ s.fr → (∃ k0 k1 c d, i = .init k0 k1 c d) ∨ i = .rst) ∧
    (t.len ≠ s.len → (∃ k0 k1 c d, i = .init k0 k1 c d) ∨ isAbsorb i = true ∨ i = .rst) ∧
    (t.buf ≠ s.buf → (∃ k0 k1 c d, i = .init k0 k1 c d) ∨ isAbsorb i = true ∨ i = .final ∨ i = .rst) ∧
    (t.phase ≠ s.phase ∨ t.digest ≠ s.digest →
      (∃ k0 k1 c d, i = .init k0 k1 c d) ∨ i = .final ∨ i = .rst) ∧
    (t.err ≠ s.err → i = .rst ∨ legal i s.phase = false) ∧
    (∀ b, i = .absb b → s.len.toNat % 8 ≠ 7 → t.v = s.v)

/-- R22: INIT stores any c and d; CR and FR change in no step but INIT, RST and the reset input. -/
def Obligations.RoundCountsFixedInTransaction : Prop :=
  (∀ (k0 k1 : Word) (c d : Byte) (s : State),
    ∃ t, exec (.init k0 k1 c d) s = .next t ∧ t.cr = c ∧ t.fr = d) ∧
  (∀ s : State, ∃ t, step s = .next t ∧
    (t.cr ≠ s.cr ∨ t.fr ≠ s.fr →
      NextIsReset s ∨ NextIs .rst s ∨ ∃ k0 k1 c d, NextIs (.init k0 k1 c d) s))

/-- R222, R32: but for FINAL, what a step shows the host does not depend on V0 to V3, on BUF, or, outside FINALIZED, on
DIGEST. -/
def Obligations.WordsNotRevealed : Prop :=
  ∀ s₁ s₂ : State, SameVisible s₁ s₂ → ¬ NextIs .final s₁ →
    ∃ t₁ t₂, step s₁ = .next t₁ ∧ step s₂ = .next t₂ ∧ SameVisible t₁ t₂

/-- R35, R26: after FINAL the words, LEN and the digest stay as they are until INIT, RST or the reset input. -/
def Obligations.FinalizedIsSingleUse : Prop :=
  ∀ s : State, s.phase = .finalized → ∃ t, step s = .next t ∧
    ((t.phase = .finalized ∧ t.v = s.v ∧ t.digest = s.digest ∧ t.len = s.len) ∨
     (t.phase = .absorbing ∧ ∃ k0 k1 c d, NextIs (.init k0 k1 c d) s) ∨
     (t.phase = .idle ∧ (NextIsReset s ∨ NextIs .rst s)))

/-- The model's choice (log entry 3): the reset input takes its own entry from the port, the command it overtakes goes with
it, and what was presented after it stays to be run on the reset core. -/
def Obligations.ResetInputTakesItsEntry : Prop :=
  (∀ (s : State) (rest : List PortEvent), s.inputs = .resetInput :: rest →
    step s = .next { State.reset with inputs := rest, responses := s.responses }) ∧
  (∀ (s : State) (cw : CommandWord) (rest : List PortEvent), s.inputs = .resetDuring cw :: rest →
    step s = .next { State.reset with inputs := rest, responses := s.responses })
end

