-- ==== Sys2Proof/Laws/Bits.lean ====
section
/-! SUPPORT. Bit fields of a command word: what a field reads as, at its own place and at others, and how a word splits
into its fields (30_encoding.md R80). -/

namespace Sys2Proof.Laws
open Sys2Proof Sys2Proof.Machine

/-- A field's bits stand from `lo` up. -/
theorem getLsbD_field {n : Nat} (v : BitVec n) (lo i : Nat) :
    (field v lo).getLsbD i = (decide (lo ≤ i) && decide (i < 152) && v.getLsbD (i - lo)) := by
  unfold field
  simp only [BitVec.getLsbD_shiftLeft, BitVec.getLsbD_setWidth]
  by_cases h : i < 152 <;> by_cases h' : lo ≤ i
  · have : i - lo < 152 := by omega
    have h'' : ¬ i < lo := by omega
    simp [h, h', h'', this]
  · have h'' : i < lo := by omega
    simp [h', h'']
  all_goals simp [h]

/-- A field read at its own place. -/
theorem extract_field_same {n : Nat} (v : BitVec n) (lo : Nat) (h : lo + n ≤ 152) :
    (field v lo).extractLsb' lo n = v := by
  apply BitVec.eq_of_getLsbD_eq
  intro i hi
  have h' : lo + i < 152 := by omega
  rw [BitVec.getLsbD_extractLsb', getLsbD_field]
  simp [hi, h']

/-- Above a field the word is zero. -/
theorem extract_field_above {n m : Nat} (v : BitVec n) (lo s : Nat) (h : lo + n ≤ s) :
    (field v lo).extractLsb' s m = 0#m := by
  apply BitVec.eq_of_getLsbD_eq
  intro i hi
  have h' : n ≤ s + i - lo := by omega
  simp [getLsbD_field, BitVec.getLsbD_of_ge v _ h']

/-- Below a field the word is zero. -/
theorem extract_field_below {n m : Nat} (v : BitVec n) (lo s : Nat) (h : s + m ≤ lo) :
    (field v lo).extractLsb' s m = 0#m := by
  apply BitVec.eq_of_getLsbD_eq
  intro i hi
  have h' : ¬ lo ≤ s + i := by omega
  simp [getLsbD_field, h']

/-- A slice of an or is the or of the slices. -/
theorem extract_or {w n : Nat} (a b : BitVec w) (s : Nat) :
    (a ||| b).extractLsb' s n = a.extractLsb' s n ||| b.extractLsb' s n := by
  apply BitVec.eq_of_getLsbD_eq
  intro i hi
  simp [hi]

/-- Fields of the INIT word. -/
theorem fields_encode_init (k0 k1 : Word) (c d : Byte) :
    opField (encode (.init k0 k1 c d)) = 0x01#8 ∧ dField (encode (.init k0 k1 c d)) = d ∧
    cField (encode (.init k0 k1 c d)) = c ∧ k1Field (encode (.init k0 k1 c d)) = k1 ∧
    k0Field (encode (.init k0 k1 c d)) = k0 := by
  simp only [opField, dField, cField, k1Field, k0Field, encode, extract_or]
  refine ⟨?_, ?_, ?_, ?_, ?_⟩ <;>
    simp (disch := omega) only [extract_field_same, extract_field_above, extract_field_below,
      BitVec.or_zero, BitVec.zero_or]

/-- Fields of the ABSB word; its must-be-zero bits are zero. -/
theorem fields_encode_absb (b : Byte) :
    opField (encode (.absb b)) = 0x02#8 ∧ byteField (encode (.absb b)) = b ∧
    (encode (.absb b)).extractLsb' 8 136 = 0#136 := by
  simp only [opField, byteField, encode, extract_or]
  refine ⟨?_, ?_, ?_⟩ <;>
    simp (disch := omega) only [extract_field_same, extract_field_above, extract_field_below,
      BitVec.or_zero, BitVec.zero_or]

/-- Fields of the ABSW word; its must-be-zero bits are zero. -/
theorem fields_encode_absw (w : Word) :
    opField (encode (.absw w)) = 0x03#8 ∧ wordField (encode (.absw w)) = w ∧
    (encode (.absw w)).extractLsb' 64 80 = 0#80 := by
  simp only [opField, wordField, encode, extract_or]
  refine ⟨?_, ?_, ?_⟩ <;>
    simp (disch := omega) only [extract_field_same, extract_field_above, extract_field_below,
      BitVec.or_zero, BitVec.zero_or]

/-- A command word is its opcode with the 144 bits below it. -/
theorem word_split (cw : CommandWord) :
    cw = field (opField cw) 144 ||| field (cw.extractLsb' 0 144) 0 := by
  apply BitVec.eq_of_getLsbD_eq
  intro i hi
  simp only [BitVec.getLsbD_or, getLsbD_field, opField, BitVec.getLsbD_extractLsb']
  by_cases h : 144 ≤ i
  · have h1 : i - 144 < 8 := by omega
    have h2 : ¬ i < 144 := by omega
    have h3 : 144 + (i - 144) = i := by omega
    simp [h, hi, h1, h2, h3]
  · have h2 : i < 144 := by omega
    simp [h, hi, h2]

/-- A command word is its five fields of format K. -/
theorem word_split_k (cw : CommandWord) :
    cw = field (opField cw) 144 ||| field (dField cw) 136 ||| field (cField cw) 128 |||
      field (k1Field cw) 64 ||| field (k0Field cw) 0 := by
  apply BitVec.eq_of_getLsbD_eq
  intro i hi
  simp only [BitVec.getLsbD_or, getLsbD_field, opField, dField, cField, k1Field, k0Field,
    BitVec.getLsbD_extractLsb']
  rcases (by omega : i < 64 ∨ (64 ≤ i ∧ i < 128) ∨ (128 ≤ i ∧ i < 136) ∨ (136 ≤ i ∧ i < 144) ∨ 144 ≤ i) with
    h | h | h | h | h
  all_goals
    simp (disch := omega) only [decide_eq_true, decide_eq_false, Bool.and_true, Bool.true_and,
      Bool.false_and, Bool.or_false, Bool.false_or, Nat.add_sub_cancel', Nat.zero_add, Nat.sub_zero]

/-- The assigned opcodes (R83). -/
theorem opcode_cases (op : Byte) (h : ¬ 0x07#8 < op) :
    op = 0x00#8 ∨ op = 0x01#8 ∨ op = 0x02#8 ∨ op = 0x03#8 ∨ op = 0x04#8 ∨ op = 0x05#8 ∨ op = 0x06#8 ∨
      op = 0x07#8 := by
  revert op; decide

/-- A word whose bits 143 to n are zero is its opcode and its low n bits. -/
theorem word_of_zero_middle {n m : Nat} (hn : n + m = 144) (cw : CommandWord)
    (h : cw.extractLsb' n m = 0#m) :
    cw = field (opField cw) 144 ||| field (cw.extractLsb' 0 n) 0 := by
  apply BitVec.eq_of_getLsbD_eq
  intro i hi
  simp only [BitVec.getLsbD_or, getLsbD_field, opField, BitVec.getLsbD_extractLsb']
  rcases (by omega : i < n ∨ (n ≤ i ∧ i < 144) ∨ 144 ≤ i) with g | g | g
  · simp (disch := omega) only [decide_eq_true, decide_eq_false, Bool.and_true, Bool.true_and,
      Bool.false_and, Bool.false_or, Nat.zero_add, Nat.sub_zero]
  · have hz := congrArg (fun v => v.getLsbD (i - n)) h
    simp only [BitVec.getLsbD_extractLsb', BitVec.getLsbD_zero] at hz
    simp (disch := omega) only [decide_eq_true, decide_eq_false, Bool.true_and, Bool.false_and, Bool.and_false,
      Bool.or_false, Nat.add_sub_cancel', Nat.zero_add, Nat.sub_zero] at hz ⊢
    exact hz
  · simp (disch := omega) only [decide_eq_true, decide_eq_false, Bool.and_true, Bool.true_and,
      Bool.false_and, Bool.and_false, Bool.or_false, Nat.add_sub_cancel']

/-- A word of format Z is its opcode alone. -/
theorem word_of_zero_low (cw : CommandWord) (h : cw.extractLsb' 0 144 = 0#144) :
    cw = field (opField cw) 144 := by
  conv_lhs => rw [word_split cw, h]
  simp [field]

/-- What a row of the match and mask table says, for a mask that covers bits 151 to n: the opcode, and zero in bits
143 to n. -/
theorem select_iff {n m : Nat} (hn : n + m = 144) (cw : CommandWord) (op : Byte) :
    cw &&& field (BitVec.allOnes (152 - n)) n = field op 144 ↔
      opField cw = op ∧ cw.extractLsb' n m = 0#m := by
  constructor
  · intro h
    have hb : ∀ i, (cw &&& field (BitVec.allOnes (152 - n)) n).getLsbD i = (field op 144).getLsbD i :=
      fun i => by rw [h]
    simp only [BitVec.getLsbD_and, getLsbD_field, BitVec.getLsbD_allOnes] at hb
    constructor
    · apply BitVec.eq_of_getLsbD_eq
      intro i hi
      have := hb (144 + i)
      simp (disch := omega) only [decide_eq_true, Bool.and_true, Bool.true_and,
        Nat.add_sub_cancel_left] at this
      simp only [opField, BitVec.getLsbD_extractLsb', hi, decide_true, Bool.true_and, this]
    · apply BitVec.eq_of_getLsbD_eq
      intro i hi
      have := hb (n + i)
      simp (disch := omega) only [decide_eq_true, decide_eq_false, Bool.and_true, Bool.false_and] at this
      simp only [BitVec.getLsbD_extractLsb', hi, decide_true, Bool.true_and, this, BitVec.getLsbD_zero]
  · rintro ⟨rfl, h⟩
    apply BitVec.eq_of_getLsbD_eq
    intro i hi
    conv_lhs => rw [word_of_zero_middle hn cw h]
    simp only [BitVec.getLsbD_and, BitVec.getLsbD_or, getLsbD_field, BitVec.getLsbD_allOnes, BitVec.getLsbD_extractLsb']
    rcases (by omega : i < n ∨ (n ≤ i ∧ i < 144) ∨ 144 ≤ i) with g | g | g
    all_goals simp (disch := omega) only [decide_eq_true, decide_eq_false, Bool.and_true, Bool.true_and,
      Bool.false_and, Bool.and_false, Bool.or_false, Bool.false_or]

/-- The INIT row's mask covers the opcode alone. -/
theorem select_iff_op (cw : CommandWord) (op : Byte) :
    cw &&& field (BitVec.allOnes 8) 144 = field op 144 ↔ opField cw = op := by
  have := select_iff (n := 144) (m := 0) rfl cw op
  rw [this]
  exact ⟨fun h => h.1, fun h => ⟨h, Subsingleton.elim _ _⟩⟩
end Sys2Proof.Laws
end

