-- ==== Sys2Proof/Laws/Bytes.lean ====
section
/-! SUPPORT. Byte lanes and byte order (00_scope.md R8, R10): a word is its eight bytes, and what the bytes of an or, a
shift by whole bytes and `le64` are. -/

namespace Sys2Proof.Laws

open Sys2Proof Sys2Proof.Machine

theorem getLsbD_byteOf (w : Word) (i j : Nat) :
    (byteOf w i).getLsbD j = (decide (j < 8) && w.getLsbD (8 * i + j)) := by
  simp [byteOf, BitVec.getLsbD_extractLsb']

/-- Two words with the same eight bytes are equal. -/
theorem word_ext_bytes {a b : Word} (h : ∀ i < 8, byteOf a i = byteOf b i) : a = b := by
  apply BitVec.eq_of_getLsbD_eq
  intro k hk
  have hb := congrArg (fun v => v.getLsbD (k % 8)) (h (k / 8) (by omega))
  simp only [getLsbD_byteOf, show k % 8 < 8 by omega, decide_true, Bool.true_and,
    show 8 * (k / 8) + k % 8 = k by omega] at hb
  exact hb

@[simp] theorem byteOf_zero (i : Nat) : byteOf 0#64 i = 0#8 := by
  simp [byteOf]

@[simp] theorem byteOf_or (a b : Word) (i : Nat) : byteOf (a ||| b) i = byteOf a i ||| byteOf b i := by
  apply BitVec.eq_of_getLsbD_eq
  intro j hj
  simp [byteOf, hj]

/-- The bytes of a left shift by `r` whole bytes. -/
theorem byteOf_shiftLeft (a : Word) (r i : Nat) (hi : i < 8) :
    byteOf (a <<< (8 * r)) i = if i < r then 0#8 else byteOf a (i - r) := by
  apply BitVec.eq_of_getLsbD_eq
  intro j hj
  rw [getLsbD_byteOf, BitVec.getLsbD_shiftLeft]
  by_cases h : i < r
  · have h1 : 8 * i + j < 8 * r := by omega
    simp [h, h1]
  · have h1 : ¬ 8 * i + j < 8 * r := by omega
    have h2 : 8 * i + j < 64 := by omega
    have h3 : 8 * i + j - 8 * r = 8 * (i - r) + j := by omega
    rw [if_neg h, getLsbD_byteOf]
    simp [h1, h2, h3]

/-- The bytes of a right shift that keeps the `r` last bytes. -/
theorem byteOf_shiftRight (a : Word) (r i : Nat) (hr : r ≤ 8) :
    byteOf (a >>> (64 - 8 * r)) i = if i < r then byteOf a (8 - r + i) else 0#8 := by
  apply BitVec.eq_of_getLsbD_eq
  intro j hj
  rw [getLsbD_byteOf, BitVec.getLsbD_ushiftRight]
  by_cases h : i < r
  · have h3 : 64 - 8 * r + (8 * i + j) = 8 * (8 - r + i) + j := by omega
    rw [if_pos h, getLsbD_byteOf, h3]
  · have h3 : 64 ≤ 64 - 8 * r + (8 * i + j) := by omega
    simp [h, BitVec.getLsbD_of_ge a _ h3]

/-- A byte extended to a word: byte 0, zero above. -/
theorem byteOf_setWidth (b : Byte) (i : Nat) : byteOf (b.setWidth 64) i = if i = 0 then b else 0#8 := by
  apply BitVec.eq_of_getLsbD_eq
  intro j hj
  rw [getLsbD_byteOf, BitVec.getLsbD_setWidth]
  by_cases h : i = 0
  · subst h
    have h1 : j < 64 := by omega
    simp [hj, h1]
  · have h1 : 8 ≤ 8 * i + j := by omega
    simp [h, BitVec.getLsbD_of_ge b _ h1]

/-- Byte i of `le64` is the i-th byte of the sequence, zero where there is none (R10). -/
theorem byteOf_le64 (bs : List Byte) (i : Nat) (hi : i < 8) : byteOf (le64 bs) i = bs[i]?.getD 0#8 := by
  induction bs generalizing i with
  | nil => simp [le64]
  | cons b bs ih =>
    simp only [le64]
    have hs := byteOf_shiftLeft (le64 bs) 1 i hi
    rw [byteOf_or, byteOf_setWidth, hs]
    cases i with
    | zero => simp
    | succ i =>
      have := ih i (by omega)
      simp [this]

/-- A further byte goes above the bytes before it. -/
theorem le64_concat (bs : List Byte) (b : Byte) :
    le64 (bs ++ [b]) = le64 bs ||| (b.setWidth 64 <<< (8 * bs.length)) := by
  apply word_ext_bytes
  intro i hi
  rw [byteOf_or, byteOf_shiftLeft _ _ _ hi, byteOf_setWidth, byteOf_le64 _ _ hi, byteOf_le64 _ _ hi]
  rcases (by omega : i < bs.length ∨ i = bs.length ∨ bs.length < i) with h | h | h
  · have h1 : bs[i]? = some bs[i] := List.getElem?_eq_getElem h
    simp [List.getElem?_append, h]
  · subst h; simp
  · have h1 : ¬ i < bs.length := by omega
    have h2 : i - bs.length ≠ 0 := by omega
    simp [List.getElem?_append, h1, h2]

/-- `le64` of a word's bytes is the word. -/
theorem le64_wordBytes (w : Word) : le64 (wordBytes w) = w := by
  apply word_ext_bytes
  intro i hi
  rw [byteOf_le64 _ _ hi]
  interval_cases i <;> rfl

@[simp] theorem length_wordBytes (w : Word) : (wordBytes w).length = 8 := rfl

/-- The i-th byte of a word operand in message order. -/
theorem getElem?_wordBytes (w : Word) (i : Nat) (hi : i < 8) : (wordBytes w)[i]? = some (byteOf w i) := by
  interval_cases i <;> rfl

end Sys2Proof.Laws
end

