-- ==== Sys2Proof/Laws/State.lean ====
section
/-! SUPPORT. One lemma per field of State per state update, true by definition, so that no later proof unfolds a record
update. -/

namespace Sys2Proof.Laws

open Sys2Proof Sys2Proof.Machine

/-! ## respond (R195) -/

@[simp] theorem respond_v (data : Word) (s : State) : (respond data s).v = s.v := rfl
@[simp] theorem respond_cr (data : Word) (s : State) : (respond data s).cr = s.cr := rfl
@[simp] theorem respond_fr (data : Word) (s : State) : (respond data s).fr = s.fr := rfl
@[simp] theorem respond_len (data : Word) (s : State) : (respond data s).len = s.len := rfl
@[simp] theorem respond_buf (data : Word) (s : State) : (respond data s).buf = s.buf := rfl
@[simp] theorem respond_phase (data : Word) (s : State) : (respond data s).phase = s.phase := rfl
@[simp] theorem respond_digest (data : Word) (s : State) : (respond data s).digest = s.digest := rfl
@[simp] theorem respond_err (data : Word) (s : State) : (respond data s).err = s.err := rfl
@[simp] theorem respond_inputs (data : Word) (s : State) : (respond data s).inputs = s.inputs := rfl
@[simp] theorem respond_responses (data : Word) (s : State) : (respond data s).responses = s.responses ++ [response 0#8 data] := rfl

/-! ## raise (R217) -/

@[simp] theorem raise_v (e : Exc) (s : State) : (raise e s).v = s.v := rfl
@[simp] theorem raise_cr (e : Exc) (s : State) : (raise e s).cr = s.cr := rfl
@[simp] theorem raise_fr (e : Exc) (s : State) : (raise e s).fr = s.fr := rfl
@[simp] theorem raise_len (e : Exc) (s : State) : (raise e s).len = s.len := rfl
@[simp] theorem raise_buf (e : Exc) (s : State) : (raise e s).buf = s.buf := rfl
@[simp] theorem raise_phase (e : Exc) (s : State) : (raise e s).phase = s.phase := rfl
@[simp] theorem raise_digest (e : Exc) (s : State) : (raise e s).digest = s.digest := rfl
@[simp] theorem raise_err (e : Exc) (s : State) : (raise e s).err = stickyErr s.err e.code := rfl
@[simp] theorem raise_inputs (e : Exc) (s : State) : (raise e s).inputs = s.inputs := rfl
@[simp] theorem raise_responses (e : Exc) (s : State) : (raise e s).responses = s.responses ++ [response e.code 0#64] := rfl

/-! ## resetRegisters (R33, R240) -/

@[simp] theorem resetRegisters_v (s : State) : (resetRegisters s).v = ⟨0#64, 0#64, 0#64, 0#64⟩ := rfl
@[simp] theorem resetRegisters_cr (s : State) : (resetRegisters s).cr = 0#8 := rfl
@[simp] theorem resetRegisters_fr (s : State) : (resetRegisters s).fr = 0#8 := rfl
@[simp] theorem resetRegisters_len (s : State) : (resetRegisters s).len = 0#8 := rfl
@[simp] theorem resetRegisters_buf (s : State) : (resetRegisters s).buf = 0#64 := rfl
@[simp] theorem resetRegisters_phase (s : State) : (resetRegisters s).phase = .idle := rfl
@[simp] theorem resetRegisters_digest (s : State) : (resetRegisters s).digest = 0#64 := rfl
@[simp] theorem resetRegisters_err (s : State) : (resetRegisters s).err = 0#8 := rfl
@[simp] theorem resetRegisters_inputs (s : State) : (resetRegisters s).inputs = s.inputs := rfl
@[simp] theorem resetRegisters_responses (s : State) : (resetRegisters s).responses = s.responses := rfl

/-! ## takeChunk (R149) -/

@[simp] theorem takeChunk_v (o : ChunkOut) (s : State) : (takeChunk o s).v = match o.blk with | some m => compress s.cr m s.v | none => s.v := rfl
@[simp] theorem takeChunk_cr (o : ChunkOut) (s : State) : (takeChunk o s).cr = s.cr := rfl
@[simp] theorem takeChunk_fr (o : ChunkOut) (s : State) : (takeChunk o s).fr = s.fr := rfl
@[simp] theorem takeChunk_len (o : ChunkOut) (s : State) : (takeChunk o s).len = o.len := rfl
@[simp] theorem takeChunk_buf (o : ChunkOut) (s : State) : (takeChunk o s).buf = o.buf := rfl
@[simp] theorem takeChunk_phase (o : ChunkOut) (s : State) : (takeChunk o s).phase = s.phase := rfl
@[simp] theorem takeChunk_digest (o : ChunkOut) (s : State) : (takeChunk o s).digest = s.digest := rfl
@[simp] theorem takeChunk_err (o : ChunkOut) (s : State) : (takeChunk o s).err = s.err := rfl
@[simp] theorem takeChunk_inputs (o : ChunkOut) (s : State) : (takeChunk o s).inputs = s.inputs := rfl
@[simp] theorem takeChunk_responses (o : ChunkOut) (s : State) : (takeChunk o s).responses = s.responses := rfl

/-! ## finish (R163) -/

@[simp] theorem finish_v (s : State) : (finish s).v = finalize s.fr (compress s.cr (tailWord s.buf s.len) s.v) := rfl
@[simp] theorem finish_cr (s : State) : (finish s).cr = s.cr := rfl
@[simp] theorem finish_fr (s : State) : (finish s).fr = s.fr := rfl
@[simp] theorem finish_len (s : State) : (finish s).len = s.len := rfl
@[simp] theorem finish_buf (s : State) : (finish s).buf = 0#64 := rfl
@[simp] theorem finish_phase (s : State) : (finish s).phase = .finalized := rfl
@[simp] theorem finish_digest (s : State) : (finish s).digest = foldWords (finalize s.fr (compress s.cr (tailWord s.buf s.len) s.v)) := rfl
@[simp] theorem finish_err (s : State) : (finish s).err = s.err := rfl
@[simp] theorem finish_inputs (s : State) : (finish s).inputs = s.inputs := rfl
@[simp] theorem finish_responses (s : State) : (finish s).responses = s.responses := rfl

/-! ## The order of updates does not matter where they touch different fields -/

theorem respond_absorb_registers (data : Word) (b : Byte) (s : State) :
    absorbByte (respond data s) b = { absorbByte s b with responses := s.responses ++ [response 0#8 data] } := rfl

end Sys2Proof.Laws
end

