-- ==== Sys2Proof/Laws/Ops.lean ====
section
/-! SUPPORT. What each shared operation can do, said once: the legality stage, taking an input, one step, and every
command as "its own effect where it is legal, SequenceError where it is not" (45_sequencer.md R191, R196). -/

namespace Sys2Proof.Laws

open Sys2Proof Sys2Proof.Machine

/-- A legal command leaves the state of its pseudocode. -/
theorem sequenced_of_legal {i : Instr} {s done : State} (h : legal i s.phase = true) :
    sequenced i s done = .next done := by
  simp [sequenced, h]

/-- A command out of sequence raises SequenceError. -/
theorem sequenced_of_not_legal {i : Instr} {s done : State} (h : legal i s.phase = false) :
    sequenced i s done = .next (raise .sequenceError s) := by
  simp [sequenced, h]

/-- The state that a legal command's pseudocode leaves (stages 3 and 4 of R196). -/
def effect (i : Instr) (s : State) : State :=
  match i with
  | .nop => respond 0#64 s
  | .init k0 k1 c d =>
    respond 0#64
      { s with v := keyInit Config.standard k0 k1, cr := c, fr := d, len := 0#8, buf := 0#64, digest := 0#64,
               phase := .absorbing }
  | .absb b => respond 0#64 (absorbByte s b)
  | .absw w => respond 0#64 (absorbBytes (wordBytes w) s)
  | .final => respond (finish s).digest (finish s)
  | .rdig => respond s.digest s
  | .rdst => respond (status s) s
  | .rst => respond 0#64 (resetRegisters s)

/-- Every command: its effect where it is legal, SequenceError where it is not. -/
theorem exec_eq (i : Instr) (s : State) :
    exec i s = .next (if legal i s.phase then effect i s else raise .sequenceError s) := by
  cases i <;>
    simp only [exec, execNop, execInit, execAbsb, execAbsw, execFinal, execRdig, execRdst, execRst, sequenced,
      effect] <;>
    split <;> rfl

/-- What a command that answers a next state did. -/
theorem exec_cases {i : Instr} {s t : State} (h : exec i s = .next t) :
    (legal i s.phase = true ∧ t = effect i s) ∨ (legal i s.phase = false ∧ t = raise .sequenceError s) := by
  rw [exec_eq] at h
  injection h with h
  cases hl : legal i s.phase <;> simp [hl] at h <;> simp [h]

/-- A step with nothing presented. -/
theorem step_idle {s : State} (h : s.inputs = []) : step s = .next s := by
  simp [step, takeInput, h]

/-- A step that takes the reset input. -/
theorem step_reset {s : State} {rest : List PortEvent} (h : s.inputs = .resetInput :: rest) :
    step s = .next (resetRegisters { s with inputs := rest }) := by
  simp [step, takeInput, h]

/-- A step whose command is overtaken by the reset input. -/
theorem step_resetDuring {s : State} {cw : CommandWord} {rest : List PortEvent}
    (h : s.inputs = .resetDuring cw :: rest) :
    step s = .next (resetRegisters { s with inputs := rest }) := by
  simp [step, takeInput, h]

/-- A step that takes an Illegal word. -/
theorem step_illegal {s : State} {cw : CommandWord} {rest : List PortEvent} {why : IllegalCause}
    (h : s.inputs = .command cw :: rest) (hd : decode cw = .illegal why) :
    step s = .next (raise .illegalCommand { s with inputs := rest }) := by
  simp [step, takeInput, h, hd]

/-- A step that takes a legal word runs its command. -/
theorem step_command {s : State} {cw : CommandWord} {rest : List PortEvent} {i : Instr}
    (h : s.inputs = .command cw :: rest) (hd : decode cw = .ok i) :
    step s = exec i { s with inputs := rest } := by
  simp [step, takeInput, h, hd]

/-- Everything a step can do. -/
theorem step_cases {s t : State} (h : step s = .next t) :
    (s.inputs = [] ∧ t = s) ∨
    (∃ rest, (s.inputs = .resetInput :: rest ∨ ∃ cw, s.inputs = .resetDuring cw :: rest) ∧
      t = resetRegisters { s with inputs := rest }) ∨
    (∃ cw rest why, s.inputs = .command cw :: rest ∧ decode cw = .illegal why ∧
      t = raise .illegalCommand { s with inputs := rest }) ∨
    (∃ cw rest i, s.inputs = .command cw :: rest ∧ decode cw = .ok i ∧ legal i s.phase = false ∧
      t = raise .sequenceError { s with inputs := rest }) ∨
    (∃ cw rest i, s.inputs = .command cw :: rest ∧ decode cw = .ok i ∧ legal i s.phase = true ∧
      t = effect i { s with inputs := rest }) := by
  rcases hin : s.inputs with _ | ⟨e, rest⟩
  · rw [step_idle hin] at h
    injection h with h
    exact .inl ⟨rfl, h.symm⟩
  · cases e with
    | resetInput =>
      rw [step_reset hin] at h
      injection h with h
      exact .inr (.inl ⟨rest, .inl rfl, h.symm⟩)
    | resetDuring cw =>
      rw [step_resetDuring hin] at h
      injection h with h
      exact .inr (.inl ⟨rest, .inr ⟨cw, rfl⟩, h.symm⟩)
    | command cw =>
      cases hd : decode cw with
      | illegal why =>
        rw [step_illegal hin hd] at h
        injection h with h
        exact .inr (.inr (.inl ⟨cw, rest, why, rfl, hd, h.symm⟩))
      | ok i =>
        rw [step_command hin hd] at h
        rcases exec_cases h with ⟨hl, ht⟩ | ⟨hl, ht⟩
        · exact .inr (.inr (.inr (.inr ⟨cw, rest, i, rfl, hd, hl, ht⟩)))
        · exact .inr (.inr (.inr (.inl ⟨cw, rest, i, rfl, hd, hl, ht⟩)))

end Sys2Proof.Laws
end

