-- ==== Sys2Proof/Laws/Chunker.lean ====
section
/-! SUPPORT. The chunker (42_block_processor.md): what absorbing bytes leaves alone, what it does to BUF, LEN and the
words, and what a sequence of absorb commands does. -/

namespace Sys2Proof.Laws

open Sys2Proof Sys2Proof.Machine

/-! ## What absorbing leaves alone -/

@[simp] theorem absorbByte_cr (s : State) (b : Byte) : (absorbByte s b).cr = s.cr := rfl
@[simp] theorem absorbByte_fr (s : State) (b : Byte) : (absorbByte s b).fr = s.fr := rfl
@[simp] theorem absorbByte_phase (s : State) (b : Byte) : (absorbByte s b).phase = s.phase := rfl
@[simp] theorem absorbByte_digest (s : State) (b : Byte) : (absorbByte s b).digest = s.digest := rfl
@[simp] theorem absorbByte_err (s : State) (b : Byte) : (absorbByte s b).err = s.err := rfl
@[simp] theorem absorbByte_inputs (s : State) (b : Byte) : (absorbByte s b).inputs = s.inputs := rfl
@[simp] theorem absorbByte_responses (s : State) (b : Byte) : (absorbByte s b).responses = s.responses := rfl

@[simp] theorem absorbBytes_nil (s : State) : absorbBytes [] s = s := rfl
@[simp] theorem absorbBytes_cons (b : Byte) (bs : List Byte) (s : State) :
    absorbBytes (b :: bs) s = absorbBytes bs (absorbByte s b) := rfl
theorem absorbBytes_append (as bs : List Byte) (s : State) :
    absorbBytes (as ++ bs) s = absorbBytes bs (absorbBytes as s) := by
  simp [absorbBytes, List.foldl_append]

@[simp] theorem absorbBytes_cr (bs : List Byte) (s : State) : (absorbBytes bs s).cr = s.cr := by
  induction bs generalizing s with
  | nil => rfl
  | cons b bs ih => rw [absorbBytes_cons, ih, absorbByte_cr]
@[simp] theorem absorbBytes_fr (bs : List Byte) (s : State) : (absorbBytes bs s).fr = s.fr := by
  induction bs generalizing s with
  | nil => rfl
  | cons b bs ih => rw [absorbBytes_cons, ih, absorbByte_fr]
@[simp] theorem absorbBytes_phase (bs : List Byte) (s : State) : (absorbBytes bs s).phase = s.phase := by
  induction bs generalizing s with
  | nil => rfl
  | cons b bs ih => rw [absorbBytes_cons, ih, absorbByte_phase]
@[simp] theorem absorbBytes_digest (bs : List Byte) (s : State) : (absorbBytes bs s).digest = s.digest := by
  induction bs generalizing s with
  | nil => rfl
  | cons b bs ih => rw [absorbBytes_cons, ih, absorbByte_digest]
@[simp] theorem absorbBytes_err (bs : List Byte) (s : State) : (absorbBytes bs s).err = s.err := by
  induction bs generalizing s with
  | nil => rfl
  | cons b bs ih => rw [absorbBytes_cons, ih, absorbByte_err]
@[simp] theorem absorbBytes_inputs (bs : List Byte) (s : State) : (absorbBytes bs s).inputs = s.inputs := by
  induction bs generalizing s with
  | nil => rfl
  | cons b bs ih => rw [absorbBytes_cons, ih, absorbByte_inputs]
@[simp] theorem absorbBytes_responses (bs : List Byte) (s : State) :
    (absorbBytes bs s).responses = s.responses := by
  induction bs generalizing s with
  | nil => rfl
  | cons b bs ih => rw [absorbBytes_cons, ih, absorbByte_responses]

/-- Absorbing reads neither port. -/
theorem absorbBytes_ports (bs : List Byte) (s : State) (ins : List PortEvent) (rs : List ResponseWord) :
    absorbBytes bs { s with inputs := ins, responses := rs } =
      { absorbBytes bs s with inputs := ins, responses := rs } := by
  induction bs generalizing s with
  | nil => rfl
  | cons b bs ih => exact ih (absorbByte s b)

/-- Absorbing reads neither port nor ERR. -/
theorem absorbBytes_env (bs : List Byte) (s : State) (e : Byte) (ins : List PortEvent) (rs : List ResponseWord) :
    absorbBytes bs { s with err := e, inputs := ins, responses := rs } =
      { absorbBytes bs s with err := e, inputs := ins, responses := rs } := by
  induction bs generalizing s with
  | nil => rfl
  | cons b bs ih => exact ih (absorbByte s b)

/-! ## One byte -/

/-- LEN counts every byte, modulo 256 (R23). -/
@[simp] theorem absorbByte_len (s : State) (b : Byte) : (absorbByte s b).len = s.len + 1#8 := by
  unfold absorbByte takeChunk chunkByte
  by_cases h : pending s.len = 7 <;> simp [h]

/-- A byte that does not complete a block (R141, r < 7). -/
theorem absorbByte_of_lt {s : State} {b : Byte} (h : pending s.len ≠ 7) :
    absorbByte s b =
      { s with buf := s.buf ||| (b.setWidth 64 <<< (8 * pending s.len)), len := s.len + 1#8 } := by
  simp [absorbByte, takeChunk, chunkByte, h]

/-- The byte that completes a block (R141, r = 7). -/
theorem absorbByte_of_eq {s : State} {b : Byte} (h : pending s.len = 7) :
    absorbByte s b =
      { s with v := compress s.cr (s.buf ||| (b.setWidth 64 <<< 56)) s.v, buf := 0#64, len := s.len + 1#8 } := by
  simp [absorbByte, takeChunk, chunkByte, h]

theorem pending_lt (len : Byte) : pending len < 8 := by
  unfold pending; omega

/-- One more byte pending, modulo 8. -/
theorem pending_succ (len : Byte) : pending (len + 1#8) = (pending len + 1) % 8 := by
  unfold pending
  rw [BitVec.toNat_add]
  simp only [BitVec.toNat_ofNat]
  omega

/-- LEN[2:0] is the true length modulo 8, for every length (R23). -/
theorem pending_ofNat (n : Nat) : pending (BitVec.ofNat 8 n) = n % 8 := by
  unfold pending
  rw [BitVec.toNat_ofNat]
  omega

/-! ## Several bytes -/

theorem absorbBytes_len (bs : List Byte) (s : State) :
    (absorbBytes bs s).len = s.len + BitVec.ofNat 8 bs.length := by
  induction bs generalizing s with
  | nil => simp
  | cons b bs ih =>
    rw [absorbBytes_cons, ih, absorbByte_len, List.length_cons, BitVec.add_assoc]
    congr 1
    apply BitVec.eq_of_toNat_eq
    simp [BitVec.toNat_add, Nat.add_comm]

/-- Bytes that do not complete a block only join BUF. -/
theorem absorbBytes_short (bs : List Byte) (s : State) (h : pending s.len + bs.length < 8) :
    absorbBytes bs s =
      { s with buf := s.buf ||| (le64 bs <<< (8 * pending s.len)), len := s.len + BitVec.ofNat 8 bs.length } := by
  induction bs using List.reverseRecOn with
  | nil => simp [le64]
  | append_singleton bs b ih =>
    simp only [List.length_append, List.length_cons, List.length_nil] at h
    have hl := absorbBytes_len bs s
    have hp : pending (absorbBytes bs s).len = pending s.len + bs.length := by
      rw [hl]
      unfold pending
      rw [BitVec.toNat_add, BitVec.toNat_ofNat]
      unfold pending at h
      omega
    rw [absorbBytes_append, absorbBytes_cons, absorbBytes_nil, absorbByte_of_lt (by omega), hp, ih (by omega),
      le64_concat]
    have hb : s.buf ||| le64 bs <<< (8 * pending s.len) ||| b.setWidth 64 <<< (8 * (pending s.len + bs.length)) =
        s.buf ||| (le64 bs ||| b.setWidth 64 <<< (8 * bs.length)) <<< (8 * pending s.len) := by
      rw [BitVec.shiftLeft_or_distrib, BitVec.or_assoc, ← BitVec.shiftLeft_add]
      rw [show 8 * bs.length + 8 * pending s.len = 8 * (pending s.len + bs.length) by omega]
    have hn : s.len + BitVec.ofNat 8 bs.length + 1#8 = s.len + BitVec.ofNat 8 (bs ++ [b]).length := by
      rw [BitVec.add_assoc]
      congr 1
      apply BitVec.eq_of_toNat_eq
      simp [BitVec.toNat_add]
    simp only [hb, hn]

/-- Bytes that complete exactly one block: one COMPRESS, the rest starts the next block. -/
theorem absorbBytes_one_block (as bs : List Byte) (s : State) (ha : pending s.len + as.length = 8)
    (hb : bs.length < 8) :
    absorbBytes (as ++ bs) s =
      { s with v := compress s.cr (s.buf ||| (le64 as <<< (8 * pending s.len))) s.v
               buf := le64 bs
               len := s.len + BitVec.ofNat 8 (as.length + bs.length) } := by
  have hlt := pending_lt s.len
  rcases List.eq_nil_or_concat as with rfl | ⟨xs, x, rfl⟩
  · simp at ha; omega
  simp only [List.concat_eq_append, List.length_append, List.length_cons, List.length_nil] at ha ⊢
  have hp : pending (s.len + BitVec.ofNat 8 xs.length) = 7 := by
    unfold pending at ha ⊢
    rw [BitVec.toNat_add, BitVec.toNat_ofNat]
    omega
  have hbuf : s.buf ||| le64 xs <<< (8 * pending s.len) ||| x.setWidth 64 <<< 56 =
      s.buf ||| le64 (xs ++ [x]) <<< (8 * pending s.len) := by
    rw [le64_concat, BitVec.shiftLeft_or_distrib, BitVec.or_assoc, ← BitVec.shiftLeft_add]
    rw [show 8 * xs.length + 8 * pending s.len = 56 by omega]
  have hp0 : pending (s.len + BitVec.ofNat 8 xs.length + 1#8) = 0 := by
    rw [pending_succ, hp]
  have hn : s.len + BitVec.ofNat 8 xs.length + 1#8 + BitVec.ofNat 8 bs.length =
      s.len + BitVec.ofNat 8 (xs.length + (0 + 1) + bs.length) := by
    rw [BitVec.add_assoc, BitVec.add_assoc]
    congr 1
    apply BitVec.eq_of_toNat_eq
    simp [BitVec.toNat_add]
    omega
  rw [absorbBytes_append, absorbBytes_append, absorbBytes_cons, absorbBytes_nil, absorbBytes_short xs s (by omega),
    absorbByte_of_eq hp, absorbBytes_short bs _ (by simp only [hp0]; omega)]
  simp only [hp0, hn, hbuf, Nat.mul_zero, BitVec.shiftLeft_zero, BitVec.zero_or]

/-- The closed form of R142: eight bytes absorbed together are the chunker's word input, where BUF is clear above its
pending bytes (R34 item 4). -/
theorem absorbBytes_wordBytes (w : Word) (s : State) (hb : BufferClearAbove s) :
    absorbBytes (wordBytes w) s = takeChunk (chunkWord w s.buf s.len) s := by
  have hr := pending_lt s.len
  have hsplit : wordBytes w = (wordBytes w).take (8 - pending s.len) ++ (wordBytes w).drop (8 - pending s.len) := by
    simp
  have hbuf0 : pending s.len = 0 → s.buf = 0#64 := fun h =>
    word_ext_bytes fun i hi => by rw [hb.1 i hi (by omega), byteOf_zero]
  by_cases h8 : pending s.len = 0
  · rw [hsplit, absorbBytes_one_block _ _ _ (by simp [h8]) (by simp [h8])]
    have e1 : List.take 8 (wordBytes w) = wordBytes w := rfl
    have e2 : List.drop 8 (wordBytes w) = [] := rfl
    simp [h8, hbuf0 h8, takeChunk, chunkWord, e1, e2, le64_wordBytes, le64]
  · have e1 : le64 ((wordBytes w).take (8 - pending s.len)) <<< (8 * pending s.len) = w <<< (8 * pending s.len) := by
      apply word_ext_bytes
      intro i hi
      rw [byteOf_shiftLeft _ _ _ hi, byteOf_shiftLeft _ _ _ hi]
      split
      · rfl
      · rw [byteOf_le64 _ _ (by omega), List.getElem?_take, if_pos (by omega),
          getElem?_wordBytes _ _ (by omega)]
        rfl
    have e2 : le64 ((wordBytes w).drop (8 - pending s.len)) = w >>> (64 - 8 * pending s.len) := by
      apply word_ext_bytes
      intro i hi
      rw [byteOf_shiftRight _ _ _ (by omega), byteOf_le64 _ _ hi, List.getElem?_drop]
      split
      · rw [getElem?_wordBytes _ _ (by omega)]; rfl
      · rw [List.getElem?_eq_none (by simp; omega)]; rfl
    have e3 : ((wordBytes w).take (8 - pending s.len)).length +
        ((wordBytes w).drop (8 - pending s.len)).length = 8 := by
      simp
    rw [hsplit, absorbBytes_one_block _ _ _ (by simp; omega) (by simp; omega), e1, e2, e3]
    simp only [takeChunk, chunkWord, if_neg h8]

/-! ## A whole message (R148) -/

theorem length_trailing (msg : List Byte) : (trailing msg).length = msg.length % 8 := by
  unfold trailing
  rw [List.length_drop]
  omega

/-- A further byte that does not complete a block joins the trailing bytes. -/
theorem blocks_concat_of_lt {msg : List Byte} {b : Byte} (h : msg.length % 8 ≠ 7) :
    fullBlocks (msg ++ [b]) = fullBlocks msg ∧ trailing (msg ++ [b]) = trailing msg ++ [b] := by
  have hd : (msg ++ [b]).length / 8 = msg.length / 8 := by simp; omega
  constructor
  · unfold fullBlocks
    rw [hd]
    apply List.map_congr_left
    intro i hi
    rw [List.mem_range] at hi
    rw [List.drop_append_of_le_length (by omega), List.take_append_of_le_length (by rw [List.length_drop]; omega)]
  · unfold trailing
    rw [hd, List.drop_append_of_le_length (by omega)]

/-- The byte that completes a block makes the trailing bytes a full block. -/
theorem blocks_concat_of_eq {msg : List Byte} {b : Byte} (h : msg.length % 8 = 7) :
    fullBlocks (msg ++ [b]) = fullBlocks msg ++ [le64 (trailing msg ++ [b])] ∧ trailing (msg ++ [b]) = [] := by
  have hd : (msg ++ [b]).length / 8 = msg.length / 8 + 1 := by simp; omega
  constructor
  · unfold fullBlocks
    rw [hd, List.range_succ, List.map_append, List.map_singleton]
    congr 1
    · apply List.map_congr_left
      intro i hi
      rw [List.mem_range] at hi
      rw [List.drop_append_of_le_length (by omega),
        List.take_append_of_le_length (by rw [List.length_drop]; omega)]
    · unfold trailing
      rw [List.drop_append_of_le_length (by omega), List.take_of_length_le]
      rw [List.length_append, List.length_drop, List.length_singleton]
      omega
  · unfold trailing
    rw [hd]
    apply List.drop_of_length_le
    rw [List.length_append, List.length_singleton]
    omega

/-- Absorbing a message from an empty chunker: the full blocks compressed in order, LEN the length modulo 256, BUF the
trailing bytes. -/
theorem absorbBytes_message (msg : List Byte) (s : State) (hl : s.len = 0#8) (hb : s.buf = 0#64) :
    absorbBytes msg s =
      { s with v := (fullBlocks msg).foldl (fun x m => compress s.cr m x) s.v
               buf := le64 (trailing msg)
               len := BitVec.ofNat 8 msg.length } := by
  induction msg using List.reverseRecOn with
  | nil => cases s; simp_all [fullBlocks, trailing, le64]
  | append_singleton msg b ih =>
    have hn : BitVec.ofNat 8 msg.length + 1#8 = BitVec.ofNat 8 (msg ++ [b]).length := by
      apply BitVec.eq_of_toNat_eq
      simp [BitVec.toNat_add]
    rw [absorbBytes_append, absorbBytes_cons, absorbBytes_nil, ih]
    by_cases h : msg.length % 8 = 7
    · obtain ⟨h1, h2⟩ := blocks_concat_of_eq (b := b) h
      have hc : le64 (trailing msg ++ [b]) = le64 (trailing msg) ||| b.setWidth 64 <<< 56 := by
        rw [le64_concat, length_trailing, h]
      rw [absorbByte_of_eq (by rw [pending_ofNat]; exact h), h1, h2, hc]
      simp only [hn, List.foldl_append, List.foldl_cons, List.foldl_nil, le64]
    · obtain ⟨h1, h2⟩ := blocks_concat_of_lt (b := b) h
      rw [absorbByte_of_lt (by rw [pending_ofNat]; exact h), h1, h2, le64_concat, length_trailing]
      simp only [hn, pending_ofNat]

/-! ## Sequences of absorb commands -/

/-- An absorb command in ABSORBING absorbs the bytes it carries and responds 0. -/
theorem exec_absorb {i : Instr} {s : State} (hi : isAbsorb i = true) (hp : s.phase = .absorbing) :
    exec i s = .next (respond 0#64 (absorbBytes (carried i) s)) := by
  rw [exec_eq]
  cases i <;> simp_all [isAbsorb, legal, effect, carried]

/-- A sequence of absorb commands in ABSORBING. -/
theorem execAll_absorbs (absorbs : List Instr) (s : State) (hi : ∀ i ∈ absorbs, isAbsorb i = true)
    (hp : s.phase = .absorbing) :
    execAll absorbs s =
      .next { absorbBytes (absorbs.flatMap carried) s with
                responses := s.responses ++ List.replicate absorbs.length okZero } := by
  induction absorbs generalizing s with
  | nil => simp [execAll]
  | cons i rest ih =>
    have h1 := exec_absorb (hi i (by simp)) hp
    simp only [execAll, h1]
    rw [ih _ (fun j hj => hi j (by simp [hj])) (by simp [hp])]
    have hports := absorbBytes_ports (rest.flatMap carried) (absorbBytes (carried i) s) s.inputs
      (s.responses ++ [okZero])
    have hr : respond 0#64 (absorbBytes (carried i) s) =
        { absorbBytes (carried i) s with inputs := s.inputs, responses := s.responses ++ [okZero] } := by
      simp [respond]
    rw [hr, hports]
    simp [List.flatMap_cons, absorbBytes_append, List.replicate_succ]

theorem execAll_append (as bs : List Instr) (s t : State) (h : execAll as s = .next t) :
    execAll (as ++ bs) s = execAll bs t := by
  induction as generalizing s with
  | nil => simp only [execAll] at h; injection h with h; simp [h]
  | cons i rest ih =>
    simp only [execAll, List.cons_append] at h ⊢
    cases he : exec i s with
    | next u => rw [he] at h; exact ih u h
    | fault f => rw [he] at h; cases h
    | refused r => rw [he] at h; cases h

end Sys2Proof.Laws
end

