-- ==== Sys2Proof/Laws/Decode.lean ====
section
/-! SUPPORT. What the decoder answers: a word is well formed by the match and mask table exactly when it passes the two
checks of the decoder, and then it decodes to the command its opcode names (30_encoding.md R83, R85, R91). -/

namespace Sys2Proof.Laws

open Sys2Proof Sys2Proof.Machine

/-- The masks of R83, as fields of ones. -/
theorem mask_z : 0xffffffffffffffffffffffffffffffffffffff#152 = field (BitVec.allOnes (152 - 0)) 0 := by decide
theorem mask_b : 0xffffffffffffffffffffffffffffffffffff00#152 = field (BitVec.allOnes (152 - 8)) 8 := by decide
theorem mask_w : 0xffffffffffffffffffffff0000000000000000#152 = field (BitVec.allOnes (152 - 64)) 64 := by decide
theorem mask_k : 0xff000000000000000000000000000000000000#152 = field (BitVec.allOnes 8) 144 := by decide

/-- The match values of R83, as the opcode field. -/
theorem pattern_nop : 0x00000000000000000000000000000000000000#152 = field 0x00#8 144 := by decide
theorem pattern_init : 0x01000000000000000000000000000000000000#152 = field 0x01#8 144 := by decide
theorem pattern_absb : 0x02000000000000000000000000000000000000#152 = field 0x02#8 144 := by decide
theorem pattern_absw : 0x03000000000000000000000000000000000000#152 = field 0x03#8 144 := by decide
theorem pattern_final : 0x04000000000000000000000000000000000000#152 = field 0x04#8 144 := by decide
theorem pattern_rdig : 0x05000000000000000000000000000000000000#152 = field 0x05#8 144 := by decide
theorem pattern_rdst : 0x06000000000000000000000000000000000000#152 = field 0x06#8 144 := by decide
theorem pattern_rst : 0x07000000000000000000000000000000000000#152 = field 0x07#8 144 := by decide

/-- The match and mask table and the decoder's two checks agree. -/
theorem wellFormed_iff (cw : CommandWord) :
    cw.wellFormed = true ↔ ¬ 0x07#8 < opField cw ∧ mbzSet (formatOf (opField cw)) cw = false := by
  unfold CommandWord.wellFormed opcodeRows
  simp only [List.any_append, List.any_cons, List.any_nil, OpcodeRow.selectedBy, Bool.or_false,
    Bool.or_eq_true, beq_iff_eq]
  rw [mask_z, mask_b, mask_w, mask_k, pattern_nop, pattern_init, pattern_absb, pattern_absw, pattern_final,
    pattern_rdig, pattern_rdst, pattern_rst]
  simp only [select_iff (n := 0) (m := 144) rfl, select_iff (n := 8) (m := 136) rfl,
    select_iff (n := 64) (m := 80) rfl, select_iff_op]
  constructor
  · intro h
    rcases h with ((⟨e, h⟩ | e | ⟨e, h⟩ | ⟨e, h⟩) | (⟨e, h⟩ | ⟨e, h⟩ | ⟨e, h⟩ | ⟨e, h⟩)) <;>
      simp_all [formatOf, mbzSet]
  · rintro ⟨h7, hm⟩
    rcases opcode_cases _ h7 with e | e | e | e | e | e | e | e <;> simp_all [formatOf, mbzSet]

/-- A well-formed word decodes to the command of its opcode. -/
theorem decode_of_wellFormed (cw : CommandWord) (h : cw.wellFormed = true) :
    decode cw = .ok (commandOf cw) := by
  obtain ⟨a, b⟩ := (wellFormed_iff cw).1 h
  simp [decode, a, b]

/-- Any other word is Illegal. -/
theorem decode_of_not_wellFormed (cw : CommandWord) (h : cw.wellFormed = false) :
    ∃ why, decode cw = .illegal why := by
  have hn := mt (wellFormed_iff cw).2 (by simp [h])
  unfold decode
  split
  · exact ⟨_, rfl⟩
  · split
    · exact ⟨_, rfl⟩
    · exact absurd ⟨by assumption, by simpa using ‹¬ mbzSet _ _ = true›⟩ hn

end Sys2Proof.Laws
end

