-- ==== Sys2Proof/Laws/Memory.lean ====
section
/-! SUPPORT. The memory laws: a read after a write, and every write keeps the canonical form. -/

namespace Sys2Proof.Laws

open Sys2Proof Sys2Proof.Machine

/-- DIG has no byte from offset 8 on (R50). -/
theorem read_outside (m : Memory) {x : Nat} (h : 8 ≤ x) : m.read x = none := by
  induction m with
  | nil => rfl
  | cons p rest ih =>
    have hk : p.1.val ≠ x := by omega
    simp [Memory.read, hk, ih]

/-- What a buffer reads as after a write: the byte written, and every other offset as before. -/
theorem read_write (m : Memory) (a : DigOffset) (b : Byte) (x : Nat) :
    (m.write a b).read x = if a.val = x then some b else m.read x := by
  induction m with
  | nil => rfl
  | cons p rest ih =>
    simp only [Memory.write]
    split
    · rfl
    · split
      · rename_i h
        simp only [Memory.read, ← h]
        by_cases hx : a.val = x <;> simp [hx]
      · rename_i h
        simp only [Memory.read, ih]
        by_cases hk : p.1.val = x
        · have : a.val ≠ x := fun e => h (Fin.ext (e.trans hk.symm))
          simp [hk, this]
        · simp [hk]

/-- A byte just written reads back. -/
@[simp] theorem read_write_same (m : Memory) (a : DigOffset) (b : Byte) : (m.write a b).read a = some b := by
  simp [read_write]

/-- A write leaves every other offset alone. -/
theorem read_write_other (m : Memory) (a : DigOffset) (x : Nat) (b : Byte) (h : x ≠ a) :
    (m.write a b).read x = m.read x := by
  simp [read_write, Ne.symm h]

/-- The offsets of a written buffer. -/
theorem mem_write {m : Memory} {a : DigOffset} {b : Byte} {q : DigOffset × Byte} (h : q ∈ m.write a b) :
    q = (a, b) ∨ q ∈ m := by
  induction m with
  | nil => simpa [Memory.write] using h
  | cons p rest ih =>
    obtain ⟨k, c⟩ := p
    simp only [Memory.write] at h
    split at h
    · simpa using h
    · split at h
      · rcases List.mem_cons.1 h with h | h
        · exact .inl h
        · exact .inr (List.mem_cons_of_mem _ h)
      · rcases List.mem_cons.1 h with h | h
        · exact .inr (by simp [h])
        · rcases ih h with h | h
          · exact .inl h
          · exact .inr (List.mem_cons_of_mem _ h)

/-- A write keeps the canonical form. -/
theorem write_wf {m : Memory} (a : DigOffset) (b : Byte) (h : m.wf) : (m.write a b).wf := by
  refine ⟨?_, fun p _ => by simp [unlisted]⟩
  have hp := h.1
  clear h
  induction m with
  | nil => simp [Memory.write]
  | cons p rest ih =>
    obtain ⟨k, c⟩ := p
    have hk := (List.pairwise_cons.1 hp).1
    have hrest := (List.pairwise_cons.1 hp).2
    simp only [Memory.write]
    split
    · rename_i hlt
      refine List.pairwise_cons.2 ⟨fun q hq => ?_, hp⟩
      rcases List.mem_cons.1 hq with hq | hq
      · subst hq; exact hlt
      · exact lt_trans hlt (hk q hq)
    · split
      · rename_i heq
        subst heq
        exact List.pairwise_cons.2 ⟨hk, hrest⟩
      · refine List.pairwise_cons.2 ⟨fun q hq => ?_, ih hrest⟩
        rcases mem_write hq with hq | hq
        · subst hq; show k < a; exact lt_of_le_of_ne (not_lt.1 (by assumption)) (Ne.symm (by assumption))
        · exact hk q hq

/-- Writing cells keeps the canonical form. -/
theorem writeCells_wf {m : Memory} (cells : List (DigOffset × Byte)) (h : m.wf) : (m.writeCells cells).wf := by
  induction cells generalizing m with
  | nil => exact h
  | cons p rest ih => exact ih (write_wf p.1 p.2 h)

/-- Writing the digest keeps the canonical form. -/
theorem writeDigest_wf {m : Memory} (bytes : List Byte) (h : m.wf) : (m.writeDigest bytes).wf := writeCells_wf _ h

/-- What DIG reads as after its 8 bytes are written: those bytes, and nothing from offset 8 on, whatever it held. -/
theorem read_writeDigest (m : Memory) {bytes : List Byte} (h : bytes.length = 8) (x : Nat) :
    (m.writeDigest bytes).read x = bytes[x]? := by
  by_cases hx : 8 ≤ x
  · rw [read_outside _ hx, List.getElem?_eq_none (by omega)]
  · match bytes, h with
    | [b0, b1, b2, b3, b4, b5, b6, b7], _ =>
      have hx : x < 8 := by omega
      interval_cases x <;> simp [Memory.writeDigest, digOffsets, Memory.writeCells, read_write]

/-- The empty buffer is canonical. -/
theorem empty_wf : Memory.wf [] := by
  constructor <;> simp

/-- Reading a boundary buffer byte by byte, at every offset inside it, gives its bytes (R51). -/
theorem memRead1_all (space : List Byte) : (List.range space.length).map (memRead1 space) = space.map some := by
  apply List.ext_getElem?
  intro i
  by_cases h : i < space.length
  · simp [memRead1, h]
  · simp [h]

end Sys2Proof.Laws
end

