-- ==== Sys2Proof/Laws/PerInstr.lean ====
section
/-! SUPPORT. Per instruction: the family `Encoding`, that an instruction's word carries its opcode, leaves every
must-be-zero bit of its format zero, and is well formed by the match and mask table (30_encoding.md R81, R83, R85). -/

namespace Sys2Proof.Laws

open Sys2Proof Sys2Proof.Machine

/-- The word of an instruction is a legal word with the instruction's opcode. -/
def Encoding.Statement (i : Instr) : Prop :=
  opField (encode i) = opcodeOf i ∧ mbzSet (formatOf (opcodeOf i)) (encode i) = false ∧
    (encode i).wellFormed = true

/-- A word with an assigned opcode and no must-be-zero bit set is well formed. -/
theorem Encoding.of_fields {i : Instr} (h7 : ¬ 0x07#8 < opcodeOf i) (ho : opField (encode i) = opcodeOf i)
    (hm : mbzSet (formatOf (opcodeOf i)) (encode i) = false) : Encoding.Statement i :=
  ⟨ho, hm, (wellFormed_iff _).2 (by rw [ho]; exact ⟨h7, hm⟩)⟩

theorem Encoding.nop : Encoding.Statement .nop := Encoding.of_fields (by decide) (by decide) (by decide)

theorem Encoding.init (k0 k1 : Word) (c d : Byte) : Encoding.Statement (.init k0 k1 c d) :=
  Encoding.of_fields (by simp [opcodeOf]) (fields_encode_init k0 k1 c d).1 rfl

theorem Encoding.absb (b : Byte) : Encoding.Statement (.absb b) :=
  Encoding.of_fields (by simp [opcodeOf]) (fields_encode_absb b).1
    (by simp [mbzSet, formatOf, opcodeOf, (fields_encode_absb b).2.2])

theorem Encoding.absw (w : Word) : Encoding.Statement (.absw w) :=
  Encoding.of_fields (by simp [opcodeOf]) (fields_encode_absw w).1
    (by simp [mbzSet, formatOf, opcodeOf, (fields_encode_absw w).2.2])

theorem Encoding.final : Encoding.Statement .final := Encoding.of_fields (by decide) (by decide) (by decide)

theorem Encoding.rdig : Encoding.Statement .rdig := Encoding.of_fields (by decide) (by decide) (by decide)

theorem Encoding.rdst : Encoding.Statement .rdst := Encoding.of_fields (by decide) (by decide) (by decide)

theorem Encoding.rst : Encoding.Statement .rst := Encoding.of_fields (by decide) (by decide) (by decide)

end Sys2Proof.Laws
end

