-- ==== Sys2Proof/Laws/Run.lean ====
section
/-! SUPPORT. Runs: presenting a sequence of commands on the port and stepping through them executes them in order. The
round trip of the encodings is taken as a hypothesis. -/

namespace Sys2Proof.Laws

open Sys2Proof Sys2Proof.Machine

/-- No command reads or writes the command port. -/
theorem exec_inputs (i : Instr) (s : State) (ins : List PortEvent) :
    exec i { s with inputs := ins } =
      match exec i s with
      | .next t => .next { t with inputs := ins }
      | .fault f => .fault f
      | .refused r => .refused r := by
  rw [exec_eq, exec_eq]
  cases hl : legal i s.phase
  · simp [raise]
  · cases i with
    | absb b =>
      have h := absorbBytes_ports [b] s ins s.responses
      simp only [absorbBytes_cons, absorbBytes_nil] at h
      simp only [effect, if_true]
      rw [show ({ s with inputs := ins } : State) = { s with inputs := ins, responses := s.responses } from rfl, h]
      rfl
    | absw w =>
      have h := absorbBytes_ports (wordBytes w) s ins s.responses
      simp only [effect, if_true]
      rw [show ({ s with inputs := ins } : State) = { s with inputs := ins, responses := s.responses } from rfl, h]
      simp [respond]
    | _ => rfl

/-- A sequence of commands leaves the port alone. -/
theorem execAll_inputs (is : List Instr) (s : State) (ins : List PortEvent) :
    execAll is { s with inputs := ins } =
      match execAll is s with
      | .next t => .next { t with inputs := ins }
      | .fault f => .fault f
      | .refused r => .refused r := by
  induction is generalizing s with
  | nil => rfl
  | cons i rest ih =>
    simp only [execAll]
    rw [exec_inputs]
    cases exec i s with
    | next t => exact ih t
    | fault f => rfl
    | refused r => rfl

/-- A command leaves the port as it was. -/
theorem exec_keeps_inputs {i : Instr} {s t : State} (h : exec i s = .next t) : t.inputs = s.inputs := by
  rcases exec_cases h with ⟨_, rfl⟩ | ⟨_, rfl⟩
  · cases i <;> simp [effect]
  · rfl

/-- Every command answers a next state. -/
theorem exec_next (i : Instr) (s : State) : ∃ t, exec i s = .next t := ⟨_, exec_eq i s⟩

/-- A run of any machine whose first step answers a next state goes on from it. -/
theorem coreRun_succ (M : Host.Core) {k : Nat} {s t : M.State} (h : M.step s = .next t) :
    M.run (k + 1) s = M.run k t := by
  simp only [Host.Core.run, h]

/-- The same, of this machine. -/
theorem run_succ {k : Nat} {s t : State} (h : step s = .next t) :
    Host.Core.run Sys2Proof.core (k + 1) s = Host.Core.run Sys2Proof.core k t :=
  coreRun_succ Sys2Proof.core h

/-- Stepping through presented commands executes them in order. -/
theorem run_present (is : List Instr) (s : State) (rest : List PortEvent)
    (hde : ∀ i ∈ is, decode (encode i) = .ok i) :
    Host.Core.run Sys2Proof.core is.length ({ s with inputs := present is ++ rest } : State) =
      execAll is { s with inputs := rest } := by
  induction is generalizing s with
  | nil => rfl
  | cons i is ih =>
    have hstep : step ({ s with inputs := present (i :: is) ++ rest } : State) =
        exec i { s with inputs := present is ++ rest } :=
      step_command (rest := present is ++ rest) rfl (hde i (by simp))
    obtain ⟨t, ht⟩ := exec_next i s
    have hi : ∀ ins : List PortEvent, exec i { s with inputs := ins } = .next { t with inputs := ins } := by
      intro ins
      rw [exec_inputs, ht]
    rw [hi] at hstep
    rw [List.length_cons, run_succ hstep, ih _ (fun j hj => hde j (by simp [hj]))]
    simp only [execAll, hi]
    rfl

end Sys2Proof.Laws
end

