-- ==== Sys2Proof/Machine/Assembly.lean ====
section
/-! DEFINITION. The assembler syntax of 30_encoding.md R89: how a command is written, one a line. Characters are
held as lists, so that the kernel evaluates them. -/

namespace Sys2Proof.Machine

/-- One hexadecimal digit. -/
def hexDigit (n : Nat) : Char :=
  if n < 10 then Char.ofNat (48 + n) else Char.ofNat (87 + n)

/-- Two hexadecimal digits of a byte. -/
def hexByte (b : Byte) : List Char := [hexDigit (b.toNat / 16), hexDigit (b.toNat % 16)]

/-- Bytes in the order given, two digits each, no separators. -/
def hexBytes (bs : List Byte) : List Char := bs.flatMap hexByte

/-- A decimal number 0..255 with no leading zeros. -/
def decimal (b : Byte) : List Char :=
  let n := b.toNat
  let digit (k : Nat) : Char := Char.ofNat (48 + k)
  if n < 10 then [digit n]
  else if n < 100 then [digit (n / 10), digit (n % 10)]
  else [digit (n / 100), digit (n / 10 % 10), digit (n % 10)]

/-- A command in the syntax of R89: `key=` lists the 16 key bytes in order, byte 0 first; a word is its numeric
value, so its digits are big-endian. -/
def assembly : Instr → List Char
  | .nop => ['N', 'O', 'P']
  | .init k0 k1 c d =>
    ['I', 'N', 'I', 'T', ' ', 'k', 'e', 'y', '='] ++ hexBytes (wordBytes k0 ++ wordBytes k1) ++
      [',', ' ', 'c', '='] ++ decimal c ++ [',', ' ', 'd', '='] ++ decimal d
  | .absb b => ['A', 'B', 'S', 'B', ' ', '0', 'x'] ++ hexByte b
  | .absw w => ['A', 'B', 'S', 'W', ' ', '0', 'x'] ++ hexBytes (beBytes w)
  | .final => ['F', 'I', 'N', 'A', 'L']
  | .rdig => ['R', 'D', 'I', 'G']
  | .rdst => ['R', 'D', 'S', 'T']
  | .rst => ['R', 'S', 'T']

end Sys2Proof.Machine
end

