-- ==== Sys2Proof/Tests/Slice0.lean ====
section
/-! SUPPORT. Tests. Every expected value is a row of spec/95_test_vectors.md or 96_derived_vectors.md, or is read from
the rule named; the `witness_` theorems show states and operands that meet the hypotheses of the statements. -/

namespace Sys2Proof.Tests

open Sys2Proof Sys2Proof.Machine

/-! ## Helpers -/

/-- The state an outcome answers. -/
def after (o : Host.Outcome State Fault Refusal) : Option State :=
  match o with
  | .next t => some t
  | .fault _ => none
  | .refused _ => none

/-- The newest response after an outcome. -/
def answer (o : Host.Outcome State Fault Refusal) : Option ResponseWord := (after o).bind (·.responses.getLast?)

/-- The constants C0 to C3: the words after INIT with the key of sixteen zero bytes. -/
def wordsZ : Words := ⟨0x736f6d6570736575#64, 0x646f72616e646f6d#64, 0x6c7967656e657261#64, 0x7465646279746573#64⟩

/-- The words after INIT with the key 00 01 … 0f. -/
def wordsK : Words := ⟨0x7469686173716475#64, 0x6b617f6d656e6665#64, 0x6b7f62616d677361#64, 0x7b6b696e727e6c7b#64⟩

/-- A core in the middle of a message. -/
def absorbing (v : Words) (c d len : Byte) (buf : Word) : State :=
  { State.reset with v := v, cr := c, fr := d, len := len, buf := buf, phase := .absorbing }

/-- A core after FINAL: the end of program P1. -/
def finalized : State :=
  { State.reset with
    v := ⟨0xef8d4581a9d137e2#64, 0x545fd627b2ed78be#64, 0x1af5eade38482871#64, 0x70dcde1a36783401#64⟩
    cr := 1#8, fr := 3#8, phase := .finalized, digest := 0xd1fba762150c532c#64 }

/-- A core with this word on its port. -/
def presented (cw : CommandWord) (s : State) : State := { s with inputs := [.command cw] }

/-- The keys of the vectors: Z, K and F. -/
def keyZ : List Byte := List.replicate 16 0#8
def keyF : List Byte := List.replicate 16 0xff#8
def keyK : List Byte := [0#8, 1#8, 2#8, 3#8, 4#8, 5#8, 6#8, 7#8] ++ [8#8, 9#8, 10#8, 11#8, 12#8, 13#8, 14#8, 15#8]

/-- The bytes of "siphash". -/
def msgSiphash : List Byte := [0x73#8, 0x69#8, 0x70#8, 0x68#8, 0x61#8, 0x73#8, 0x68#8]

/-- Buffers around a fresh core. -/
def system (key msg : List Byte) : System := ⟨State.reset, msg, key, []⟩

/-! ## WellFormed: each check refuses an ill-formed term -/

theorem smoke_reserved_opcode : CommandWord.wellFormed 0x08000000000000000000000000000000000000#152 = false := by
  decide
theorem smoke_format_z : CommandWord.wellFormed 0x07000000000000000000000000000000000001#152 = false := by decide
theorem smoke_format_z_top : CommandWord.wellFormed 0x00800000000000000000000000000000000000#152 = false := by decide
theorem smoke_format_b : CommandWord.wellFormed 0x02000000000000000000000000000000000100#152 = false := by decide
theorem smoke_format_w : CommandWord.wellFormed 0x03000000000000000000010000000000000000#152 = false := by decide
theorem smoke_format_k_has_no_check :
    CommandWord.wellFormed 0x01ffffffffffffffffffffffffffffffffffff#152 = true := by decide
theorem smoke_key_length_15 : (HashCall.mk (keyZ.drop 1) [] 1 3).wellFormed = false := by decide
theorem smoke_key_length_17 : (HashCall.mk (0#8 :: keyZ) [] 1 3).wellFormed = false := by decide
theorem smoke_count_c_256 : (HashCall.mk keyZ [] 256 3).wellFormed = false := by decide
theorem smoke_count_d_256 : (HashCall.mk keyZ [] 1 256).wellFormed = false := by decide
theorem smoke_call_255 : (HashCall.mk keyZ [] 255 255).wellFormed = true := by decide

/-! ## Decoding: words written out from R80 to R83 (96_derived_vectors.md sections 2.2 and 2.8) -/

theorem test_decode_nop : decodeTableWord 152 0x00000000000000000000000000000000000000 = some .nop := by decide
theorem test_decode_init :
    decodeTableWord 152 0x0104020f0e0d0c0b0a09080706050403020100 =
      some (.init 0x0706050403020100#64 0x0f0e0d0c0b0a0908#64 2#8 4#8) := by decide
theorem test_decode_init_c_only :
    decodeTableWord 152 0x01000100000000000000000000000000000000 = some (.init 0#64 0#64 1#8 0#8) := by decide
theorem test_decode_init_key_byte_15 :
    decodeTableWord 152 0x01030180000000000000000000000000000000 =
      some (.init 0#64 0x8000000000000000#64 1#8 3#8) := by decide
theorem test_decode_init_all_ones :
    decode 0x01ffffffffffffffffffffffffffffffffffff#152 =
      .ok (.init 0xffffffffffffffff#64 0xffffffffffffffff#64 0xff#8 0xff#8) := by decide
theorem test_decode_absb : decodeTableWord 152 0x020000000000000000000000000000000000ff = some (.absb 0xff#8) := by
  decide
theorem test_decode_absw :
    decodeTableWord 152 0x03000000000000000000001817161514131211 = some (.absw 0x1817161514131211#64) := by decide
theorem test_decode_final : decodeTableWord 152 0x04000000000000000000000000000000000000 = some .final := by decide
theorem test_decode_rdig : decodeTableWord 152 0x05000000000000000000000000000000000000 = some .rdig := by decide
theorem test_decode_rdst : decodeTableWord 152 0x06000000000000000000000000000000000000 = some .rdst := by decide
theorem test_decode_rst : decodeTableWord 152 0x07000000000000000000000000000000000000 = some .rst := by decide
theorem test_decode_illegal :
    decode 0x00000000000000000000000000000000000001#152 = .illegal .mustBeZero ∧
    decode 0x00800000000000000000000000000000000000#152 = .illegal .mustBeZero ∧
    decode 0x02000100000000000000000000000000000000#152 = .illegal .mustBeZero ∧
    decode 0x03800000000000000000000000000000000000#152 = .illegal .mustBeZero ∧
    decode 0x040000000000000000000000000000000000ff#152 = .illegal .mustBeZero ∧
    decode 0x05000000000000000000010000000000000000#152 = .illegal .mustBeZero ∧
    decode 0x06000000000000000000000000000000000002#152 = .illegal .mustBeZero ∧
    decode 0x80000000000000000000000000000000000000#152 = .illegal .reservedOpcode ∧
    decode 0xffffffffffffffffffffffffffffffffffffff#152 = .illegal .reservedOpcode := by decide

/-! ## The primitives and the Permutation (96_derived_vectors.md section 2.1) -/

theorem test_rotl64 :
    rotl64 0x8000000000000000#64 13 = 0x0000000000001000#64 ∧
    rotl64 0x7465646279746573#64 16 = 0x6462797465737465#64 ∧
    rotl64 0x0123456789abcdef#64 17 = 0x8acf13579bde0246#64 ∧
    rotl64 0x0123456789abcdef#64 21 = 0xacf13579bde02468#64 ∧
    rotl64 0xd7dedfc6ded7d4e2#64 32 = 0xded7d4e2d7dedfc6#64 := by decide
theorem test_sipRound :
    sipRound ⟨0x0123456789abcdef#64, 0xfedcba9876543210#64, 0x0f1e2d3c4b5a6978#64, 0x8796a5b4c3d2e1f0#64⟩ =
      ⟨0x33001123eeddccfd#64, 0x1d0b375d48a3fad5#64, 0x88eb2b8cff61c426#64, 0x177dca9a711bacff#64⟩ := by decide
theorem test_sipRound_wraps :
    sipRound ⟨0xffffffffffffffff#64, 0xffffffffffffffff#64, 0xffffffffffffffff#64, 0xffffffffffffffff#64⟩ =
      ⟨0xffffffff00000000#64, 0xfffffffffffdffff#64, 0xffffffffffffffff#64, 0xffffffff00200000#64⟩ := by decide
theorem test_rounds :
    rounds 0#8 wordsZ = wordsZ ∧
    rounds 4#8 wordsZ =
      ⟨0xb853d790208f2e09#64, 0x2c608b78ab8d4745#64, 0x81f9aadedded5d38#64, 0x03b3a4d7e64d39e8#64⟩ := by
  decide +kernel
theorem test_rounds_255 :
    rounds 255#8 wordsZ =
      ⟨0xe31fa2b6709f5acd#64, 0x4935bea11bb56040#64, 0xfff8ccf0bf7ea085#64, 0x1114348be02bb092#64⟩ := by
  decide +kernel

/-! ## COMPRESS and TAILWORD (sections 2.3, 2.4) -/

theorem test_compress :
    compress 2#8 0x0706050403020100#64 wordsZ =
      ⟨0x42db706f57db6a65#64, 0x056732541e3ada7e#64, 0x22a32b4dfed35fd2#64, 0x352a4c13b09bfad3#64⟩ := by
  decide +kernel
theorem test_compress_no_rounds :
    compress 0#8 0x0706050403020100#64 wordsZ =
      ⟨0x7469686173716475#64, 0x646f72616e646f6d#64, 0x6c7967656e657261#64, 0x736361667a766473#64⟩ := by decide
theorem test_tailWord :
    tailWord 0x39#64 9#8 = 0x0900000000000039#64 ∧
    tailWord 0x00ffffffffffffff#64 7#8 = 0x07ffffffffffffff#64 ∧ tailWord 0#64 0#8 = 0#64 := by decide

/-! ## The commands: one step each -/

theorem test_nop :
    exec .nop finalized = .next { finalized with responses := [0x000000000000000000#72] } := by rfl

/-- Section 2.2, the row of key K; INIT in FINALIZED clears DIGEST and keeps ERR (P4 row 23). -/
theorem test_init :
    after (exec (.init 0x0706050403020100#64 0x0f0e0d0c0b0a0908#64 1#8 3#8) { finalized with err := 2#8, len := 7#8 }) =
      some { absorbing wordsK 1#8 3#8 0#8 0#64 with err := 2#8, responses := [0#72] } := by decide
/-- Section 2.2, the row of K reversed: which key word goes to which state word. -/
theorem test_init_pairing :
    keyInit Config.standard 0x08090a0b0c0d0e0f#64 0x0001020304050607#64 =
      ⟨0x7b66676e7c7e6b7a#64, 0x646e70626a61696a#64, 0x64706d6e62687c6e#64, 0x746466617d716374#64⟩ := by decide

/-- Section 2.5, the row `ABSB 0x37`. -/
theorem test_absb_pending :
    after (exec (.absb 0x37#8) (absorbing wordsZ 1#8 3#8 6#8 0x0000363534333231#64)) =
      some { absorbing wordsZ 1#8 3#8 7#8 0x0037363534333231#64 with responses := [0#72] } := by decide
/-- Section 2.5, the row `ABSB 0x38`. -/
theorem test_absb_completes :
    after (exec (.absb 0x38#8) (absorbing wordsZ 1#8 3#8 7#8 0x0037363534333231#64)) =
      some { absorbing
        ⟨0xf143ffebf0fe5786#64, 0x164a0db3fe393137#64, 0x0ee74212f25eabc7#64, 0x5609540e7af03629#64⟩
        1#8 3#8 8#8 0#64 with responses := [0#72] } := by decide +kernel

/-- Section 2.5, the alignment table, r = 0. -/
theorem test_absw_aligned :
    after (exec (.absw 0x1817161514131211#64) (absorbing wordsK 2#8 4#8 0#8 0#64)) =
      some { absorbing
        ⟨0x2f670fe1906f7137#64, 0x9c4eb3f8390960f0#64, 0x9bd9493c7924b195#64, 0x848a1f15f44c4f3a#64⟩
        2#8 4#8 8#8 0#64 with responses := [0#72] } := by decide +kernel
/-- Section 2.5, the alignment table, r = 7. -/
theorem test_absw_split :
    after (exec (.absw 0x1817161514131211#64) (absorbing wordsK 2#8 4#8 7#8 0x00a6a5a4a3a2a1a0#64)) =
      some { absorbing
        ⟨0x9802ee47d5b50c8b#64, 0xd0c43c7436ab88a2#64, 0x9a71943c8f207313#64, 0x64a2745160d4f2d6#64⟩
        2#8 4#8 15#8 0x0018171615141312#64 with responses := [0#72] } := by decide +kernel

/-- Program P1, row 2. -/
theorem test_final_empty :
    after (exec .final (absorbing wordsZ 1#8 3#8 0#8 0#64)) =
      some { finalized with responses := [0x00d1fba762150c532c#72] } := by decide +kernel
/-- Section 2.6, the trace of "123456789" with (2, 4), from the state after block 0. -/
theorem test_final_tail :
    after (exec .final (absorbing
        ⟨0xcc32b5f50f15bdba#64, 0x5252f437ba206a06#64, 0x526f561702f93e77#64, 0x6e2eef36c4009056#64⟩
        2#8 4#8 9#8 0x39#64)) =
      some { State.reset with
        v := ⟨0xc26b88791d145bf7#64, 0x4c45500922262c40#64, 0xe7b82b54829da312#64, 0x610a3e6bc0f5cd5a#64⟩
        cr := 2#8, fr := 4#8, len := 9#8, phase := .finalized, digest := 0x089ccd4f7d5a19ff#64
        responses := [0x00089ccd4f7d5a19ff#72] } := by decide +kernel

/-- Program P1, row 3. -/
theorem test_rdig :
    after (exec .rdig finalized) = some { finalized with responses := [0x00d1fba762150c532c#72] } := by decide
/-- Section 2.8: RDIG in ABSORBING. -/
theorem test_rdig_out_of_sequence :
    after (exec .rdig (absorbing wordsZ 1#8 3#8 1#8 0x31#64)) =
      some { absorbing wordsZ 1#8 3#8 1#8 0x31#64 with err := 2#8, responses := [0x020000000000000000#72] } := by
  decide

/-- Section 2.9, the row after `INIT key=F, c=255, d=255`. -/
theorem test_rdst :
    answer (exec .rdst { absorbing wordsZ 0xff#8 0xff#8 0#8 0#64 with err := 2#8 }) =
      some 0x0000000002ffff0001#72 := by decide
/-- Section 2.9, the row after the second FINAL. -/
theorem test_rdst_finalized :
    answer (exec .rdst { finalized with len := 8#8, err := 2#8 }) = some 0x000000000203010802#72 := by decide

/-- Program P4, row 25. -/
theorem test_rst :
    after (exec .rst { finalized with err := 2#8, len := 7#8 }) = some { State.reset with responses := [0#72] } := by
  decide

/-! ## Steps, faults and reset -/

/-- Section 2.8, step 1: a malformed ABSB in IDLE reports IllegalCommand. -/
theorem test_step_illegal :
    after (step (presented 0x02000000000000000000000000000000000100#152 State.reset)) =
      some { State.reset with err := 3#8, responses := [0x030000000000000000#72] } := by decide
/-- Section 2.8, step 2: a well-formed ABSB in IDLE; ERR keeps the first code. -/
theorem test_step_sequence :
    after (step (presented 0x02000000000000000000000000000000000041#152 { State.reset with err := 3#8 })) =
      some { State.reset with err := 3#8, responses := [0x020000000000000000#72] } := by decide
/-- The word the host places is the one the step runs. -/
theorem test_step_fetches :
    after (step (State.reset.withFetchWord 152 0x01030100000000000000000000000000000000)) =
      some { absorbing wordsZ 1#8 3#8 0#8 0#64 with responses := [0#72] } := by decide
/-- R240: the reset input, in the middle of a message, gives no response. -/
theorem test_step_reset_input :
    after (step { absorbing wordsK 2#8 4#8 3#8 0x030201#64 with
        err := 2#8, inputs := [.resetDuring 0x04000000000000000000000000000000000000#152] }) =
      some State.reset := by decide
theorem test_step_nothing_presented : after (step finalized) = some finalized := by decide

/-! ## Digests (95_test_vectors.md section 1, 96_derived_vectors.md sections 2.4 and 2.7) -/

theorem test_digest_siphash_K :
    sipHashCD Config.standard 1#8 3#8 keyK msgSiphash = 0xd5518fe19f28c745#64 := by decide +kernel
theorem test_digest_siphash_Z :
    sipHashCD Config.standard 2#8 4#8 keyZ msgSiphash = 0x59caaeb90d542464#64 := by decide +kernel
theorem test_digest_17 :
    sipHashCD Config.standard 1#8 3#8 keyZ (List.replicate 17 0x31#8) = 0x4a515ba1033eb057#64 := by decide +kernel
theorem test_digest_1000 :
    sipHashCD Config.standard 2#8 4#8 keyZ (List.replicate 1000 0x78#8) = 0xa07a230346e2656b#64 := by
  decide +kernel
theorem test_digest_rounds :
    sipHashCD Config.standard 3#8 5#8 keyZ [] = 0x95772adebda3f3f0#64 ∧
    sipHashCD Config.standard 0#8 255#8 keyK msgSiphash = 0x26979930f15357c8#64 := by decide +kernel

/-! ## The boundary (section 2.10) and the assembler syntax (R89) -/

/-- `HASH "ab", K, 1, 3`: what the caller gets and what DIG holds. -/
theorem test_hash :
    (match System.hash 1 3 (system keyK [0x61#8, 0x62#8]) with
      | (.next bytes, t) => (bytes, t.dig.map (fun p => p.2), t.core.phase)
      | (_, t) => ([], t.dig.map (fun p => p.2), t.core.phase)) =
      ([0x0c#8, 0x14#8, 0x9f#8, 0x5d#8, 0x94#8, 0x3a#8, 0x15#8, 0xed#8],
       [0x0c#8, 0x14#8, 0x9f#8, 0x5d#8, 0x94#8, 0x3a#8, 0x15#8, 0xed#8], Phase.finalized) := by decide +kernel
theorem test_hash_short_key :
    System.hash 1 3 (system (keyZ.drop 1) []) = (.fault .invalidKeyLength, system (keyZ.drop 1) []) := by rfl
theorem test_expansion_words :
    present (hashExpansion 0x0706050403020100#64 0x0f0e0d0c0b0a0908#64 1#8 3#8 [0x61#8, 0x62#8]) =
      [.command 0x0103010f0e0d0c0b0a09080706050403020100#152,
       .command 0x02000000000000000000000000000000000061#152,
       .command 0x02000000000000000000000000000000000062#152,
       .command 0x04000000000000000000000000000000000000#152] := by decide
theorem test_assembly_init :
    "INIT key=000102030405060708090a0b0c0d0e0f, c=2, d=4".toList =
      assembly (.init 0x0706050403020100#64 0x0f0e0d0c0b0a0908#64 2#8 4#8) := by decide +kernel
theorem test_assembly_absw :
    "ABSW 0x732d747365676964".toList = assembly (.absw 0x732d747365676964#64) := by decide +kernel

/-- R210: SIPHASH24 raises InvalidKeyLength too. -/
theorem test_siphash24_long_key :
    (system (0#8 :: keyZ) []).siphash24 = (.fault .invalidKeyLength, system (0#8 :: keyZ) []) := by rfl

/-! ## Witnesses: the hypotheses of the statements are met, at the ends of each clause's range -/

theorem witness_EncodeDecodeRoundTrip :
    decode 0x01ffff00000000000000000000000000000000#152 = .ok (.init 0#64 0#64 0xff#8 0xff#8) := by decide
theorem witness_OpcodeMapSelectsCommand :
    0x01ffffffffffffffffffffffffffffffffffff#152 &&& 0xff000000000000000000000000000000000000#152 =
      0x01000000000000000000000000000000000000#152 ∧
    0x020000000000000000000000000000000000ff#152 &&& 0xffffffffffffffffffffffffffffffffffff00#152 =
      0x02000000000000000000000000000000000000#152 ∧
    0x0300000000000000000000ffffffffffffffff#152 &&& 0xffffffffffffffffffffff0000000000000000#152 =
      0x03000000000000000000000000000000000000#152 := by decide
theorem witness_OpcodeMap_rows :
    opcodeRows.map (fun r => (r.mnemonic.toList, r.selectedBy r.pattern)) =
      [("NOP".toList, true), ("INIT".toList, true), ("ABSB".toList, true), ("ABSW".toList, true)] ++
      [("FINAL".toList, true), ("RDIG".toList, true), ("RDST".toList, true), ("RST".toList, true)] := by
  decide +kernel
/-- Also of `DecodeOrder` and `RaisesIllegal`: the last legal and the first reserved opcode. -/
theorem witness_LegalExactlyWhenRowMatches :
    CommandWord.wellFormed 0x07000000000000000000000000000000000000#152 = true ∧
    CommandWord.wellFormed 0x08000000000000000000000000000000000000#152 = false ∧
    0x07#8 < BitVec.extractLsb' 144 8 0x08000000000000000000000000000000000000#152 ∧
    ¬ 0x07#8 < BitVec.extractLsb' 144 8 0x07000000000000000000000000000000000000#152 ∧
    BitVec.extractLsb' 144 8 0x01ffffffffffffffffffffffffffffffffffff#152 = 0x01#8 ∧
    (presented 0x08000000000000000000000000000000000000#152 State.reset).inputs =
      [.command 0x08000000000000000000000000000000000000#152] := by decide
/-- Must-be-zero clauses: the lowest and the highest such bit of each format; also of the clauses of the commands that
name an opcode and its must-be-zero bits. -/
theorem witness_DecodeOrder :
    (BitVec.extractLsb' 144 8 0x02000000000000000000000000000000000100#152 = 0x02#8 ∧
      BitVec.extractLsb' 8 136 0x02000000000000000000000000000000000100#152 ≠ 0#136) ∧
    BitVec.extractLsb' 8 136 0x02800000000000000000000000000000000000#152 ≠ 0#136 ∧
    (BitVec.extractLsb' 144 8 0x03000000000000000000010000000000000000#152 = 0x03#8 ∧
      BitVec.extractLsb' 64 80 0x03000000000000000000010000000000000000#152 ≠ 0#80) ∧
    BitVec.extractLsb' 64 80 0x03800000000000000000000000000000000000#152 ≠ 0#80 ∧
    (BitVec.extractLsb' 144 8 0x04000000000000000000000000000000000001#152 = 0x04#8 ∧
      BitVec.extractLsb' 0 144 0x04000000000000000000000000000000000001#152 ≠ 0#144) ∧
    (BitVec.extractLsb' 144 8 0x05800000000000000000000000000000000000#152 = 0x05#8 ∧
      BitVec.extractLsb' 0 144 0x05800000000000000000000000000000000000#152 ≠ 0#144) ∧
    (BitVec.extractLsb' 144 8 0x06000000000000000000000000000000000002#152 = 0x06#8 ∧
      BitVec.extractLsb' 0 144 0x06000000000000000000000000000000000002#152 ≠ 0#144) ∧
    (BitVec.extractLsb' 144 8 0x07000000000000000000000000000000000001#152 = 0x07#8 ∧
      BitVec.extractLsb' 0 144 0x07000000000000000000000000000000000001#152 ≠ 0#144) ∧
    (BitVec.extractLsb' 144 8 0x00800000000000000000000000000000000000#152 = 0x00#8 ∧
      BitVec.extractLsb' 0 144 0x00800000000000000000000000000000000000#152 ≠ 0#144) := by decide
/-- The premises of `DecodeOrder` as they stand there. -/
theorem witness_MustBeZeroBitSet :
    MustBeZeroBitSet 0x02000000000000000000000000000000000100#152 ∧
    ¬ MustBeZeroBitSet 0x020000000000000000000000000000000000ff#152 ∧
    ¬ MustBeZeroBitSet 0x01ffffffffffffffffffffffffffffffffffff#152 := by decide
/-- The same clauses with the bits clear: words that decode. -/
theorem witness_mustBeZero_clear :
    (BitVec.extractLsb' 144 8 0x020000000000000000000000000000000000ff#152 = 0x02#8 ∧
      BitVec.extractLsb' 8 136 0x020000000000000000000000000000000000ff#152 = 0#136) ∧
    (BitVec.extractLsb' 144 8 0x0300000000000000000000ffffffffffffffff#152 = 0x03#8 ∧
      BitVec.extractLsb' 64 80 0x0300000000000000000000ffffffffffffffff#152 = 0#80) ∧
    (BitVec.extractLsb' 144 8 0x04000000000000000000000000000000000000#152 = 0x04#8 ∧
      BitVec.extractLsb' 0 144 0x04000000000000000000000000000000000000#152 = 0#144) ∧
    BitVec.extractLsb' 144 8 0x05000000000000000000000000000000000000#152 = 0x05#8 ∧
    BitVec.extractLsb' 144 8 0x06000000000000000000000000000000000000#152 = 0x06#8 ∧
    BitVec.extractLsb' 144 8 0x07000000000000000000000000000000000000#152 = 0x07#8 := by decide
theorem witness_RotlMovesBits :
    13 ∈ [13, 16, 17, 21, 32] ∧ 32 ∈ [13, 16, 17, 21, 32] ∧ 0 < 64 ∧ 63 < 64 := by decide
theorem witness_RoundsRepeatSipRound : (0#8 : Byte) ≠ 255#8 ∧ (254#8 : Byte) ≠ 255#8 := by decide
theorem witness_key_of_16_bytes :
    keyZ.length = 16 ∧ keyK.length = 16 ∧ keyF.length = 16 ∧
    le64 (keyK.take 8) = 0x0706050403020100#64 ∧ le64 (keyK.drop 8) = 0x0f0e0d0c0b0a0908#64 := by decide
theorem witness_InitForgetsHistory :
    finalized ≠ State.reset ∧ finalized.err = State.reset.err ∧ finalized.inputs = State.reset.inputs ∧
    finalized.responses = State.reset.responses := by decide
/-- The three phases, and LEN[2:0] = 0, 6 and 7: `AbsbAbsorbsOneByte`, `AbswIsEightAbsb`, `FinalProducesDigest`,
`RdigReadsDigest`, `RegisterWriters`, `FinalizedIsSingleUse`. -/
theorem witness_phases :
    (absorbing wordsZ 1#8 3#8 8#8 0#64).phase = .absorbing ∧ State.reset.phase ≠ .absorbing ∧
    finalized.phase ≠ .absorbing ∧ finalized.phase = .finalized ∧ State.reset.phase ≠ .finalized ∧
    (absorbing wordsZ 1#8 3#8 8#8 0#64).len.toNat % 8 < 7 ∧
    (absorbing wordsZ 1#8 3#8 0xfe#8 0#64).len.toNat % 8 < 7 ∧
    (absorbing wordsZ 1#8 3#8 0xff#8 0#64).len.toNat % 8 = 7 := by decide
/-- LEN[2:0] = 0, 1 and 7 with a full BUF below: `AbswIsEightAbsb`, `TailWordLayout`. -/
theorem witness_BufferClearAbove :
    BufferClearAbove (absorbing wordsZ 1#8 3#8 0#8 0#64) ∧
    BufferClearAbove (absorbing wordsZ 1#8 3#8 9#8 0xff#64) ∧
    BufferClearAbove (absorbing wordsZ 1#8 3#8 0xff#8 0x00ffffffffffffff#64) := by decide
/-- `ChunkerWholeMessage`, `ZeroRoundsDigestIsConstant`, `TransactionComputesSipHash`: no command, and both kinds. -/
theorem witness_absorbs :
    (∀ i ∈ ([] : List Instr), isAbsorb i = true) ∧
    (∀ i ∈ [Instr.absb 0#8, .absw 0x1817161514131211#64, .absb 0xff#8], isAbsorb i = true) := by decide
/-- ABSB, an Illegal word, RDIG, RDST, as they stand in `witness_FaultsDoNotSpoilTransaction`. -/
def mixedWords : List CommandWord :=
  [0x02000000000000000000000000000000000061#152, 0x08000000000000000000000000000000000000#152] ++
  [0x05000000000000000000000000000000000000#152, 0x06000000000000000000000000000000000000#152]
theorem witness_FaultsDoNotSpoilTransaction :
    keyK.length = 16 ∧ mixedWords.all staysInTransaction = true ∧
    mixedWords.map faultsInTransaction = [false, true, true, false] ∧
    ∃ s : State, s.inputs = .command (encode (.init (le64 (keyK.take 8)) (le64 (keyK.drop 8)) 1#8 3#8)) ::
      (mixedWords.map PortEvent.command ++ .command (encode .final) :: []) :=
  ⟨rfl, by decide +kernel, by decide +kernel, { State.reset with inputs := _ }, rfl⟩
theorem witness_HashWritesDigest :
    (system keyK msgSiphash).key.length = 16 ∧ 0 < 256 ∧ 255 < 256 ∧
    sipHashCD Config.standard (BitVec.ofNat 8 1) (BitVec.ofNat 8 3) keyK msgSiphash = 0xd5518fe19f28c745#64 := by
  decide +kernel
/-- Also of `ShorthandDigests`, `HashWritesDigest` and `WideRoundCountRefused`: a key of another length. -/
theorem witness_WrongKeyLengthTouchesNothing :
    (system [] msgSiphash).key.length ≠ 16 ∧ (system (keyK.drop 1) []).key.length ≠ 16 ∧
    (system (0#8 :: keyK) []).key.length ≠ 16 := by decide
theorem witness_WideRoundCountRefused :
    (system keyK []).key.length = 16 ∧ 255 < 256 ∧ System.hash 256 0 (system keyK []) =
      (.refused .roundCountTooWide, system keyK []) := ⟨rfl, by decide, rfl⟩
theorem witness_HashKeepsBuffers :
    Memory.wf [] ∧ Memory.wf [(0, 1#8), (7, 2#8)] ∧ Memory.read [(0, 1#8), (7, 2#8)] 7 = some 2#8 ∧
    Memory.read [(0, 1#8), (7, 2#8)] 8 = none := by decide +kernel
theorem witness_RstResetsRegisters :
    ∃ t, exec .rst { finalized with err := 3#8 } = .next t ∧ ({ finalized with err := 3#8 } : State).err ≠ 0#8 ∧
      t.err = 0#8 ∧ finalized.phase ≠ .idle ∧ t.phase = .idle := ⟨_, rfl, by decide, rfl, by decide, rfl⟩
/-- Of `PhaseTransitions`, `OneResponsePerCommand`, `ResetInputAndRstAgree`, `ResetInputTakesItsEntry`. -/
theorem witness_NextIsReset :
    NextIsReset { finalized with inputs := [.resetInput] } ∧
    NextIsReset { finalized with inputs := [.resetDuring 0#152, .resetInput] } :=
  ⟨⟨[], .inl rfl⟩, ⟨[.resetInput], .inr ⟨0#152, rfl⟩⟩⟩
theorem witness_PhaseTransitions :
    decode 0x08000000000000000000000000000000000000#152 = .illegal .reservedOpcode ∧
    (presented 0x08000000000000000000000000000000000000#152 finalized).inputs =
      .command 0x08000000000000000000000000000000000000#152 :: [] := by decide
/-- `OneResponsePerCommand`, `StepRunsDecodedInstruction`: the port with a word, and empty. -/
theorem witness_ports :
    (presented 0#152 finalized).inputs = .command 0#152 :: [] ∧ decode 0#152 = .ok .nop ∧ State.reset.inputs = [] := by
  decide
theorem witness_FaultEntry :
    ∃ t, step (presented 0x05000000000000000000000000000000000000#152 State.reset) = .next t ∧
      t.responses = State.reset.responses ++ [0x020000000000000000#72] ∧
      respCode 0x020000000000000000#72 ≠ 0#8 := ⟨_, rfl, by decide, by decide⟩
theorem witness_ExceptionPriority :
    (HashCall.mk [] [] 0 0).key.length ≠ 16 ∧ (HashCall.mk [] [] 0 0).countsOk = true ∧
    (HashCall.mk (0#8 :: keyK) [] 255 255).key.length ≠ 16 ∧
    (HashCall.mk (0#8 :: keyK) [] 255 255).countsOk = true ∧
    ({ finalized with inputs := [.resetDuring 0#152] } : State).inputs = .resetDuring 0#152 :: [] := by decide
theorem witness_StepKeepsInvariant :
    Invariant (presented 0x03000000000000000000001817161514131211#152
      (absorbing wordsK 2#8 4#8 7#8 0x00a6a5a4a3a2a1a0#64)) ∧ Invariant finalized ∧
    (after (step (presented 0x03000000000000000000001817161514131211#152
      (absorbing wordsK 2#8 4#8 7#8 0x00a6a5a4a3a2a1a0#64)))).isSome = true := by decide
theorem witness_RegisterWriters :
    ∃ t, exec (.absb 0x38#8) (absorbing wordsZ 1#8 3#8 7#8 0#64) = .next t ∧ t.len ≠ 7#8 ∧
      ∃ u, exec .final State.reset = .next u ∧ u.err ≠ State.reset.err :=
  ⟨_, rfl, by decide, _, rfl, by decide⟩
theorem witness_RoundCountsFixedInTransaction :
    ∃ t, step (presented 0x01030100000000000000000000000000000000#152 State.reset) = .next t ∧
      t.cr ≠ State.reset.cr := ⟨_, rfl, by decide⟩
/-- Two cores that differ in what the port does not reveal, with a RDST to come. -/
theorem witness_WordsNotRevealed :
    SameVisible (presented 0x06000000000000000000000000000000000000#152 (absorbing wordsZ 1#8 3#8 7#8 0#64))
      (presented 0x06000000000000000000000000000000000000#152 (absorbing wordsK 1#8 3#8 7#8 0xff#64)) ∧
    ¬ NextIs .final
      (presented 0x06000000000000000000000000000000000000#152 (absorbing wordsZ 1#8 3#8 7#8 0#64)) := by
  refine ⟨by decide, ?_⟩
  rintro ⟨cw, rest, h, hd⟩
  injection h with h _
  injection h with h
  subst h
  exact absurd hd (by decide)
theorem witness_NextIs :
    NextIs (.init 0#64 0#64 1#8 3#8) (presented 0x01030100000000000000000000000000000000#152 finalized) ∧
    NextIs .rst (presented 0x07000000000000000000000000000000000000#152 finalized) :=
  ⟨⟨_, _, rfl, by decide⟩, ⟨_, _, rfl, by decide⟩⟩

end Sys2Proof.Tests
end

section
/-! The scope of the model (00_scope.md R12): one step takes at most one entry of the command port and always completes. -/

namespace Sys2Proof.Proofs

open Sys2Proof Sys2Proof.Machine Sys2Proof.Laws

/-- Settles O46, by what stands at the head of the command port: nothing, the reset input alone or during a command, or
a word, which is Illegal or runs a command (each command answers a next state by `exec_next`). -/
theorem stepIsTotal : Obligations.StepIsTotal := by
  intro s
  rcases hin : s.inputs with _ | ⟨event, rest⟩
  · exact ⟨_, step_idle hin⟩
  · cases event with
    | resetInput => exact ⟨_, step_reset hin⟩
    | resetDuring cw => exact ⟨_, step_resetDuring hin⟩
    | command cw =>
      cases hd : decode cw with
      | illegal why => exact ⟨_, step_illegal hin hd⟩
      | ok i =>
        rw [step_command hin hd]
        exact exec_next i { s with inputs := rest }

end Sys2Proof.Proofs
end

section
/-! The registers under one step (10_state.md R20, R22, R26, R27, R35): what a step can do to them, said once, and which
command may write which register. -/

namespace Sys2Proof.Proofs

open Sys2Proof Sys2Proof.Machine Sys2Proof.Laws

/-! ## Fault entry and the legality stage -/

/-- Fault entry keeps ERR, or gives it the code where it was 0 (R217). -/
theorem raise_err_cases (e : Exc) (s : State) :
    (raise e s).err = s.err ∨ (s.err = 0#8 ∧ (raise e s).err = e.code) := by
  by_cases h : s.err = 0#8
  · exact .inr ⟨h, by simp [stickyErr, h]⟩
  · exact .inl (by simp [stickyErr, h])

/-- An absorb command is legal in ABSORBING only (R191). -/
theorem phase_of_legal_absorb {i : Instr} {p : Phase} (hi : isAbsorb i = true) (hl : legal i p = true) :
    p = .absorbing := by
  cases i with
  | absb b | absw w =>
    cases p with
    | absorbing => rfl
    | idle | finalized => cases hl
  | _ => cases hi

/-- A legal absorb command, byte or word, absorbs the bytes it carries and responds 0. -/
theorem effect_absorb {i : Instr} (hi : isAbsorb i = true) (s : State) :
    effect i s = respond 0#64 (absorbBytes (carried i) s) := by
  cases i with
  | absb b | absw w => rfl
  | _ => cases hi

/-! ## What one step does to the registers -/

/-- A step keeps every register but ERR, which at most takes a fault code over 0; or it takes the reset input; or it runs
the legal command that is next on the port. -/
theorem step_registers {s t : State} (h : step s = .next t) :
    (SameButErr s t ∧ (t.err = s.err ∨ (s.err = 0#8 ∧ (t.err = 2#8 ∨ t.err = 3#8)))) ∨
    (NextIsReset s ∧ ∃ u, t = resetRegisters u) ∨
    (∃ i rest, NextIs i s ∧ legal i s.phase = true ∧ t = effect i { s with inputs := rest }) := by
  have hsame (u : State) : SameButErr u u := ⟨rfl, rfl, rfl, rfl, rfl, rfl, rfl⟩
  rcases step_cases h with ⟨_, rfl⟩ | ⟨rest, hin, rfl⟩ | ⟨cw, rest, why, _, _, rfl⟩ | ⟨cw, rest, i, _, _, _, rfl⟩ |
    ⟨cw, rest, i, hin, hd, hl, rfl⟩
  · exact .inl ⟨hsame t, .inl rfl⟩
  · exact .inr (.inl ⟨⟨rest, hin⟩, _, rfl⟩)
  · exact .inl ⟨hsame s, (raise_err_cases .illegalCommand _).imp_right fun ⟨h0, he⟩ => ⟨h0, .inr he⟩⟩
  · exact .inl ⟨hsame s, (raise_err_cases .sequenceError _).imp_right fun ⟨h0, he⟩ => ⟨h0, .inl he⟩⟩
  · exact .inr (.inr ⟨i, rest, ⟨cw, rest, hin, hd⟩, hl, rfl⟩)

/-! ## Which command writes which register (R20, the column "written by") -/

/-- INIT, whatever its operands. -/
abbrev IsInit (i : Instr) : Prop := ∃ k0 k1 c d, i = .init k0 k1 c d

theorem writer_of_words_or_buf {i : Instr} {s : State} (h : (effect i s).v ≠ s.v ∨ (effect i s).buf ≠ s.buf) :
    IsInit i ∨ isAbsorb i = true ∨ i = .final ∨ i = .rst := by
  cases i with
  | init k0 k1 c d => exact .inl ⟨k0, k1, c, d, rfl⟩
  | absb b | absw w => exact .inr (.inl rfl)
  | final => exact .inr (.inr (.inl rfl))
  | rst => exact .inr (.inr (.inr rfl))
  | nop | rdig | rdst => exact absurd h (by simp [effect])

theorem writer_of_counts {i : Instr} {s : State} (h : (effect i s).cr ≠ s.cr ∨ (effect i s).fr ≠ s.fr) :
    IsInit i ∨ i = .rst := by
  cases i with
  | init k0 k1 c d => exact .inl ⟨k0, k1, c, d, rfl⟩
  | rst => exact .inr rfl
  | nop | absb b | absw w | final | rdig | rdst => exact absurd h (by simp [effect])

theorem writer_of_len {i : Instr} {s : State} (h : (effect i s).len ≠ s.len) :
    IsInit i ∨ isAbsorb i = true ∨ i = .rst := by
  cases i with
  | init k0 k1 c d => exact .inl ⟨k0, k1, c, d, rfl⟩
  | absb b | absw w => exact .inr (.inl rfl)
  | rst => exact .inr (.inr rfl)
  | nop | final | rdig | rdst => exact absurd rfl h

theorem writer_of_phase_or_digest {i : Instr} {s : State}
    (h : (effect i s).phase ≠ s.phase ∨ (effect i s).digest ≠ s.digest) :
    IsInit i ∨ i = .final ∨ i = .rst := by
  cases i with
  | init k0 k1 c d => exact .inl ⟨k0, k1, c, d, rfl⟩
  | final => exact .inr (.inl rfl)
  | rst => exact .inr (.inr rfl)
  | nop | absb b | absw w | rdig | rdst => exact absurd h (by simp [effect])

theorem writer_of_err {i : Instr} {s : State} (h : (effect i s).err ≠ s.err) : i = .rst := by
  cases i with
  | rst => rfl
  | nop | init k0 k1 c d | absb b | absw w | final | rdig | rdst => exact absurd h (by simp [effect])

/-- A byte that does not complete a block leaves the words (R20, R141). -/
theorem absorbByte_v_of_lt {s : State} {b : Byte} (h : pending s.len ≠ 7) : (absorbByte s b).v = s.v := by
  rw [absorbByte_of_lt h]

/-- Settles O51: a command out of sequence writes ERR only; a legal one has the writers of each register. -/
theorem registerWriters : Obligations.RegisterWriters := by
  intro i s
  cases hl : legal i s.phase with
  | false => exact ⟨raise .sequenceError s, by simp [exec_eq, hl], by simp⟩
  | true =>
    refine ⟨effect i s, by simp [exec_eq, hl], fun h => writer_of_words_or_buf (.inl h), writer_of_counts,
      writer_of_len, fun h => writer_of_words_or_buf (.inr h), writer_of_phase_or_digest,
      fun h => .inl (writer_of_err h), ?_⟩
    rintro b rfl hr
    exact absorbByte_v_of_lt hr

/-- Settles O52: of the three things a step can do, only the reset input and the writers of CR and FR change them. -/
theorem roundCountsFixedInTransaction : Obligations.RoundCountsFixedInTransaction := by
  refine ⟨fun k0 k1 c d s => ⟨_, exec_eq (.init k0 k1 c d) s, rfl, rfl⟩, fun s => ?_⟩
  obtain ⟨t, ht⟩ := stepIsTotal s
  refine ⟨t, ht, fun hne => ?_⟩
  rcases step_registers ht with ⟨⟨_, hcr, hfr, _⟩, _⟩ | ⟨hreset, _⟩ | ⟨i, rest, hnext, _, rfl⟩
  · exact absurd hne (by simp [hcr, hfr])
  · exact .inl hreset
  · rcases writer_of_counts hne with ⟨k0, k1, c, d, rfl⟩ | rfl
    · exact .inr (.inr ⟨k0, k1, c, d, hnext⟩)
    · exact .inr (.inl hnext)

/-- Settles O44: of the legal commands only RST writes ERR, and it writes 0. -/
theorem errIsSticky : Obligations.ErrIsSticky := by
  intro s
  obtain ⟨t, ht⟩ := stepIsTotal s
  refine ⟨t, ht, ?_⟩
  rcases step_registers ht with ⟨_, herr | hfault⟩ | ⟨hreset, u, rfl⟩ | ⟨i, rest, hnext, _, rfl⟩
  · exact .inl herr
  · exact .inr (.inl hfault)
  · exact .inr (.inr ⟨rfl, .inl hreset⟩)
  · by_cases hsame : (effect i { s with inputs := rest }).err = s.err
    · exact .inl hsame
    · obtain rfl := writer_of_err hsame
      exact .inr (.inr ⟨rfl, .inr hnext⟩)

/-- A command that is legal in FINALIZED reads, or starts a new message, or resets (R35). -/
theorem effect_of_finalized {i : Instr} {s : State} (hp : s.phase = .finalized) (hl : legal i s.phase = true) :
    ((effect i s).phase = .finalized ∧ (effect i s).v = s.v ∧ (effect i s).digest = s.digest ∧
      (effect i s).len = s.len) ∨
    ((effect i s).phase = .absorbing ∧ IsInit i) ∨
    ((effect i s).phase = .idle ∧ i = .rst) := by
  rw [hp] at hl
  cases i with
  | nop | rdig | rdst => exact .inl ⟨hp, rfl, rfl, rfl⟩
  | init k0 k1 c d => exact .inr (.inl ⟨rfl, k0, k1, c, d, rfl⟩)
  | rst => exact .inr (.inr ⟨rfl, rfl⟩)
  | absb b | absw w | final => cases hl

/-- Settles O54, by what a step from FINALIZED can do: hold, take the reset input, or run a command legal there. -/
theorem finalizedIsSingleUse : Obligations.FinalizedIsSingleUse := by
  intro s hp
  obtain ⟨t, ht⟩ := stepIsTotal s
  refine ⟨t, ht, ?_⟩
  rcases step_registers ht with ⟨⟨hv, _, _, hlen, _, hphase, hdigest⟩, _⟩ | ⟨hreset, u, rfl⟩ |
    ⟨i, rest, hnext, hl, rfl⟩
  · exact .inl ⟨hphase.trans hp, hv, hdigest, hlen⟩
  · exact .inr (.inr ⟨rfl, .inl hreset⟩)
  · rcases effect_of_finalized (s := { s with inputs := rest }) hp hl with
      hstay | ⟨hphase, k0, k1, c, d, rfl⟩ | ⟨hphase, rfl⟩
    · exact .inl hstay
    · exact .inr (.inl ⟨hphase, k0, k1, c, d, hnext⟩)
    · exact .inr (.inr ⟨hphase, .inr hnext⟩)

end Sys2Proof.Proofs
end

section
/-! The state invariants (10_state.md R34): what has them in each phase, that absorbing keeps BUF clear above its pending
bytes, and that every step keeps all six. -/

namespace Sys2Proof.Proofs

open Sys2Proof Sys2Proof.Machine Sys2Proof.Laws

/-! ## BUF is clear above its pending bytes (R34 item 4) -/

/-- The first half of item 4 is enough: byte 7 of BUF is never among the pending bytes. -/
theorem bufferClearAbove_of_bytes {s : State} (h : ∀ i < 8, pending s.len ≤ i → byteOf s.buf i = 0#8) :
    BufferClearAbove s :=
  ⟨h, h 7 (by omega) (Nat.le_of_lt_succ (pending_lt s.len))⟩

theorem bufferClearAbove_of_buf_zero {s : State} (h : s.buf = 0#64) : BufferClearAbove s :=
  bufferClearAbove_of_bytes fun i _ _ => by rw [h, byteOf_zero]

/-- A byte goes to the first clear place of BUF, and the eighth clears BUF (R141). -/
theorem absorbByte_keeps_bufferClearAbove {s : State} (b : Byte) (h : BufferClearAbove s) :
    BufferClearAbove (absorbByte s b) := by
  by_cases h7 : pending s.len = 7
  · exact bufferClearAbove_of_buf_zero (by rw [absorbByte_of_eq h7])
  · apply bufferClearAbove_of_bytes
    intro i hi hle
    have hlt := pending_lt s.len
    rw [absorbByte_len, pending_succ, Nat.mod_eq_of_lt (by omega)] at hle
    have hold : byteOf s.buf i = 0#8 := h.1 i hi (by omega)
    have hnew : byteOf (b.setWidth 64 <<< (8 * pending s.len)) i = 0#8 := by
      rw [byteOf_shiftLeft _ _ _ hi, if_neg (by omega), byteOf_setWidth, if_neg (by omega)]
    rw [absorbByte_of_lt h7]
    simp only [byteOf_or, hold, hnew, BitVec.or_zero]

theorem absorbBytes_keeps_bufferClearAbove {s : State} (bs : List Byte) (h : BufferClearAbove s) :
    BufferClearAbove (absorbBytes bs s) := by
  induction bs generalizing s with
  | nil => exact h
  | cons b bs ih => exact ih (absorbByte_keeps_bufferClearAbove b h)

/-! ## What has the invariants in each phase -/

/-- PHASE is 0, 1 or 2 (R34 item 1). -/
theorem phase_code_cases (p : Phase) : p.code = 0#2 ∨ p.code = 1#2 ∨ p.code = 2#2 := by
  cases p with
  | idle => exact .inl rfl
  | absorbing => exact .inr (.inl rfl)
  | finalized => exact .inr (.inr rfl)

theorem invariant_of_absorbing {s : State} (hp : s.phase = .absorbing) (hd : s.digest = 0#64)
    (hb : BufferClearAbove s) (he : ErrIsACommandFault s) : Invariant s :=
  ⟨phase_code_cases _, fun _ => hd, by simp [hp], hb, by simp [hp], he⟩

theorem invariant_of_finalized {s : State} (hp : s.phase = .finalized) (hb : s.buf = 0#64)
    (he : ErrIsACommandFault s) : Invariant s :=
  ⟨phase_code_cases _, by simp [hp], by simp [hp], bufferClearAbove_of_buf_zero hb, fun _ => hb, he⟩

theorem resetRegisters_invariant (s : State) : Invariant (resetRegisters s) :=
  ⟨phase_code_cases _, fun _ => rfl, fun _ => ⟨rfl, rfl, rfl, rfl, rfl⟩, bufferClearAbove_of_buf_zero rfl,
    fun _ => rfl, .inl rfl⟩

theorem err_of_invariant {s : State} (h : Invariant s) : ErrIsACommandFault s := by
  obtain ⟨_, _, _, _, _, herr⟩ := h
  exact herr

/-- The invariants read no port, and of ERR item 6 only. -/
theorem invariant_of_sameButErr {s t : State} (h : Invariant s) (hst : SameButErr s t)
    (he : ErrIsACommandFault t) : Invariant t := by
  obtain ⟨hv, hcr, hfr, hlen, hbuf, hphase, hdigest⟩ := hst
  obtain ⟨_, h2, h3, h4, h5, _⟩ := h
  refine ⟨phase_code_cases _, ?_, ?_, ?_, ?_, he⟩
  · rwa [DigestOnlyWhenFinalized, hphase, hdigest]
  · rwa [IdleIsClear, hphase, hv, hcr, hfr, hlen, hbuf]
  · rwa [BufferClearAbove, hlen, hbuf]
  · rwa [FinalizedBufferClear, hphase, hbuf]

/-! ## Every step keeps the invariants -/

theorem effect_absorb_keeps_invariant {i : Instr} {s : State} (hi : isAbsorb i = true)
    (hl : legal i s.phase = true) (h : Invariant s) : Invariant (effect i s) := by
  obtain ⟨_, hdigest, _, hbuf, _, herr⟩ := h
  have hp : s.phase = .absorbing := phase_of_legal_absorb hi hl
  have hd : s.digest = 0#64 := hdigest (by simp [hp])
  rw [effect_absorb hi]
  exact invariant_of_absorbing (by simp [hp]) (by simp [hd])
    (absorbBytes_keeps_bufferClearAbove (carried i) hbuf) (by simpa [ErrIsACommandFault] using herr)

theorem effect_keeps_invariant {i : Instr} {s : State} (hl : legal i s.phase = true) (h : Invariant s) :
    Invariant (effect i s) := by
  have herr : ErrIsACommandFault s := err_of_invariant h
  cases i with
  | nop | rdig | rdst => exact h
  | init k0 k1 c d => exact invariant_of_absorbing rfl rfl (bufferClearAbove_of_buf_zero rfl) herr
  | absb b | absw w => exact effect_absorb_keeps_invariant rfl hl h
  | final => exact invariant_of_finalized rfl rfl herr
  | rst => exact resetRegisters_invariant s

/-- Settles O49: the state after reset is every register at its reset value. -/
theorem resetSatisfiesInvariant : Obligations.ResetSatisfiesInvariant := resetRegisters_invariant State.reset

/-- Settles O50, by what a step can do to the registers: hold them up to ERR, reset them, or run a legal command. -/
theorem stepKeepsInvariant : Obligations.StepKeepsInvariant := by
  refine ⟨resetSatisfiesInvariant, fun s t h ht => ?_⟩
  rcases step_registers ht with ⟨hsame, herr⟩ | ⟨_, u, rfl⟩ | ⟨i, rest, _, hl, rfl⟩
  · refine invariant_of_sameButErr h hsame ?_
    rcases herr with he | ⟨_, he⟩
    · rw [ErrIsACommandFault, he]
      exact err_of_invariant h
    · exact .inr he
  · exact resetRegisters_invariant u
  · exact effect_keeps_invariant (s := { s with inputs := rest }) hl h

end Sys2Proof.Proofs
end

section
/-! The STATUS word and the reset values (10_state.md R28, R33). -/

namespace Sys2Proof.Proofs

open Sys2Proof Sys2Proof.Machine Sys2Proof.Laws

/-! ## A field of a wider word, shifted to its place and read back -/

theorem extract_zext_same {n w : Nat} (v : BitVec n) (lo : Nat) (h : lo + n ≤ w) :
    (v.setWidth w <<< lo).extractLsb' lo n = v := by
  apply BitVec.eq_of_getLsbD_eq
  intro i hi
  have hw : lo + i < w := by omega
  simp [hi, hw]

theorem extract_zext_above {n m w : Nat} (v : BitVec n) (lo s : Nat) (h : lo + n ≤ s) :
    (v.setWidth w <<< lo).extractLsb' s m = 0#m := by
  apply BitVec.eq_of_getLsbD_eq
  intro i hi
  have hn : n ≤ s + i - lo := by omega
  simp [BitVec.getLsbD_of_ge v _ hn]

theorem extract_zext_below {n m w : Nat} (v : BitVec n) (lo s : Nat) (h : s + m ≤ lo) :
    (v.setWidth w <<< lo).extractLsb' s m = 0#m := by
  apply BitVec.eq_of_getLsbD_eq
  intro i hi
  have hlo : s + i < lo := by omega
  simp [hlo]

/-- STATUS with every field, PHASE included, at a place. -/
theorem status_eq_shifted (s : State) :
    status s = (s.err.setWidth 64 <<< 32) ||| (s.fr.setWidth 64 <<< 24) ||| (s.cr.setWidth 64 <<< 16) |||
      (s.len.setWidth 64 <<< 8) ||| (s.phase.code.setWidth 64 <<< 0) := by
  rw [status, BitVec.shiftLeft_zero]

/-- Settles O37: at each slice of STATUS one field stands, or none, and the others are zero there. -/
theorem statusLayout : Obligations.StatusLayout := by
  intro s
  rw [status_eq_shifted]
  simp only [extract_or]
  refine ⟨?_, ?_, ?_, ?_, ?_, ?_, ?_, rfl, rfl, rfl⟩ <;>
    simp (disch := omega) only [extract_zext_same, extract_zext_above, extract_zext_below, BitVec.or_zero,
      BitVec.zero_or]

theorem status_reset : status State.reset = 0#64 := by decide

/-- Settles O47: RDST responds STATUS, which is 0 after reset. -/
theorem resetValues : Obligations.ResetValues := by
  refine ⟨rfl, rfl, rfl, rfl, rfl, rfl, rfl, rfl, ?_⟩
  calc exec .rdst State.reset
    _ = .next (respond (status State.reset) State.reset) := exec_eq .rdst State.reset
    _ = .next { State.reset with responses := [response 0#8 0#64] } := by rw [status_reset]; rfl

end Sys2Proof.Proofs
end

section
/-! The caller's buffers under HASH (20_memory.md R50, R51, R57): what a call can do to the system, said once, and what it
leaves of MSG, KEY and DIG. -/

namespace Sys2Proof.Proofs

open Sys2Proof Sys2Proof.Machine Sys2Proof.Laws

/-- HASH gives no digest and leaves the whole system as it was, or its commands expand and run on the core, and the data
of the last response goes to the caller and to DIG (R176, R180). -/
theorem hash_cases (c d : Nat) (sys : System) :
    ((sys.hash c d).2 = sys ∧ ∀ bytes, (sys.hash c d).1 ≠ .next bytes) ∨
    (∃ is t, expandHash ⟨sys.key, sys.msg, c, d⟩ = .next is ∧ runCommands is sys.core = .next t ∧
      sys.hash c d = (.next (beBytes (lastData t)),
        { sys with core := t, dig := sys.dig.writeDigest (beBytes (lastData t)) })) := by
  rw [System.hash]
  cases hexpand : expandHash ⟨sys.key, sys.msg, c, d⟩ with
  | fault f | refused r => exact .inl ⟨rfl, nofun⟩
  | next is =>
    cases hrun : runCommands is sys.core with
    | fault f | refused r => exact .inl (by simp [hrun])
    | next t => exact .inr ⟨is, t, rfl, hrun, by simp [hrun]⟩

/-- No call of HASH writes the caller's MSG or KEY (R50). -/
theorem hash_msg_key (c d : Nat) (sys : System) :
    (sys.hash c d).2.msg = sys.msg ∧ (sys.hash c d).2.key = sys.key := by
  rcases hash_cases c d sys with ⟨hsame, _⟩ | ⟨_, _, _, _, hhash⟩
  · rw [hsame]
    exact ⟨rfl, rfl⟩
  · rw [hhash]
    exact ⟨rfl, rfl⟩

/-- HASH leaves DIG alone or writes the digest to it, so it keeps DIG's canonical form. -/
theorem hash_dig_wf (c d : Nat) {sys : System} (h : sys.dig.wf) : (sys.hash c d).2.dig.wf := by
  rcases hash_cases c d sys with ⟨hsame, _⟩ | ⟨_, t, _, _, hhash⟩
  · rwa [hsame]
  · rw [hhash]
    exact writeDigest_wf (beBytes (lastData t)) h

/-- Settles O34: HASH writes DIG only, in canonical form, and no DIG has a byte from offset 8 on. -/
theorem hashKeepsBuffers : Obligations.HashKeepsBuffers := by
  intro c d sys hwf
  obtain ⟨hmsg, hkey⟩ := hash_msg_key c d sys
  exact ⟨hmsg, hkey, hash_dig_wf c d hwf, fun a ha => ⟨read_outside _ ha, read_outside _ ha⟩⟩

end Sys2Proof.Proofs
end

section
/-! The decoder against the match and mask table (30_encoding.md R82 to R85, R91): the command of each opcode, what a
selected row says of a word, and what an Illegal word does. -/

namespace Sys2Proof.Proofs

open Sys2Proof Sys2Proof.Machine Sys2Proof.Laws

/-! ## The command of each assigned opcode (R82, R83) -/

theorem commandOf_nop {cw : CommandWord} (h : opField cw = 0x00#8) : commandOf cw = .nop := by rw [commandOf, h]; rfl
theorem commandOf_init {cw : CommandWord} (h : opField cw = 0x01#8) :
    commandOf cw = .init (k0Field cw) (k1Field cw) (cField cw) (dField cw) := by rw [commandOf, h]; rfl
theorem commandOf_absb {cw : CommandWord} (h : opField cw = 0x02#8) : commandOf cw = .absb (byteField cw) := by
  rw [commandOf, h]; rfl
theorem commandOf_absw {cw : CommandWord} (h : opField cw = 0x03#8) : commandOf cw = .absw (wordField cw) := by
  rw [commandOf, h]; rfl
theorem commandOf_final {cw : CommandWord} (h : opField cw = 0x04#8) : commandOf cw = .final := by
  rw [commandOf, h]; rfl
theorem commandOf_rdig {cw : CommandWord} (h : opField cw = 0x05#8) : commandOf cw = .rdig := by
  rw [commandOf, h]; rfl
theorem commandOf_rdst {cw : CommandWord} (h : opField cw = 0x06#8) : commandOf cw = .rdst := by
  rw [commandOf, h]; rfl
theorem commandOf_rst {cw : CommandWord} (h : opField cw = 0x07#8) : commandOf cw = .rst := by
  rw [commandOf, h]; rfl

/-! ## A selected row names the opcode, and no two rows name the same one (R83) -/

/-- Every row's mask covers the opcode. -/
theorem opField_mask : ∀ r ∈ opcodeRows, opField r.mask = BitVec.allOnes 8 := by
  simp [opcodeRows, opField]

/-- A word that selects a row has the opcode of the row's match value. -/
theorem opField_of_selectedBy {r : OpcodeRow} {cw : CommandWord} (hr : r ∈ opcodeRows)
    (h : r.selectedBy cw = true) : opField cw = opField r.pattern := by
  have hpattern : cw &&& r.mask = r.pattern := beq_iff_eq.1 h
  calc opField cw
    _ = opField cw &&& opField r.mask := by rw [opField_mask r hr, BitVec.and_allOnes]
    _ = opField (cw &&& r.mask) := BitVec.extractLsb'_and.symm
    _ = opField r.pattern := by rw [hpattern]

/-- The opcodes of the eight match values differ. -/
theorem nodup_row_opcodes : (opcodeRows.map fun r => opField r.pattern).Nodup := by decide

/-- The eight (match, mask) pairs are disjoint. -/
theorem row_unique {cw : CommandWord} {r₁ r₂ : OpcodeRow} (h₁ : r₁ ∈ opcodeRows) (h₂ : r₂ ∈ opcodeRows)
    (hs₁ : r₁.selectedBy cw = true) (hs₂ : r₂.selectedBy cw = true) : r₁ = r₂ :=
  List.inj_on_of_nodup_map nodup_row_opcodes h₁ h₂
    ((opField_of_selectedBy h₁ hs₁).symm.trans (opField_of_selectedBy h₂ hs₂))

/-- A word that matches row `k` of the table decodes to the command of that row's opcode. -/
theorem decode_of_row (k : Nat) {r : OpcodeRow} {cw : CommandWord} {i : Instr} (hk : opcodeRows[k]? = some r)
    (h : cw &&& r.mask = r.pattern) (hi : opField cw = opField r.pattern → commandOf cw = i) :
    decode cw = .ok i := by
  have hr : r ∈ opcodeRows := List.mem_of_getElem? hk
  have hs : r.selectedBy cw = true := beq_iff_eq.2 h
  rw [decode_of_wellFormed cw (List.any_eq_true.2 ⟨r, hr, hs⟩), hi (opField_of_selectedBy hr hs)]

/-- Settles O4: a matched row makes the word well formed and fixes its opcode, so the decoder answers that opcode's
command; two rows matched by one word share its opcode. -/
theorem opcodeMapSelectsCommand : Obligations.OpcodeMapSelectsCommand := by
  refine ⟨fun cw => ⟨fun h => ?_, fun h => ?_, fun h => ?_, fun h => ?_, fun h => ?_, fun h => ?_, fun h => ?_,
    fun h => ?_⟩, fun cw r₁ r₂ => row_unique⟩
  · exact decode_of_row 0 rfl h commandOf_nop
  · exact decode_of_row 1 rfl h commandOf_init
  · exact decode_of_row 2 rfl h commandOf_absb
  · exact decode_of_row 3 rfl h commandOf_absw
  · exact decode_of_row 4 rfl h commandOf_final
  · exact decode_of_row 5 rfl h commandOf_rdig
  · exact decode_of_row 6 rfl h commandOf_rdst
  · exact decode_of_row 7 rfl h commandOf_rst

/-! ## Illegal words (R84, R85, R91) -/

/-- The decoder reads no state, so an Illegal word is refused in every one (R213). -/
theorem raisesIllegal_of_decode {cw : CommandWord} {why : IllegalCause} (h : decode cw = .illegal why) :
    RaisesIllegal cw :=
  fun _ _ hin => step_illegal hin h

theorem decode_reserved {cw : CommandWord} (h : 0x07#8 < opField cw) : decode cw = .illegal .reservedOpcode :=
  if_pos h

theorem isOk_decode_iff_wellFormed (cw : CommandWord) : (∃ i, decode cw = .ok i) ↔ cw.wellFormed = true := by
  constructor
  · rintro ⟨i, hi⟩
    by_contra hn
    obtain ⟨why, hw⟩ := decode_of_not_wellFormed cw (Bool.not_eq_true _ ▸ hn)
    exact nomatch hi.symm.trans hw
  · exact fun h => ⟨_, decode_of_wellFormed cw h⟩

/-- Opcode 0x01 has no must-be-zero bit (R85). -/
theorem wellFormed_of_opcode_init {cw : CommandWord} (h : opField cw = 0x01#8) : cw.wellFormed = true :=
  (wellFormed_iff cw).2 (by rw [h]; exact ⟨by decide, rfl⟩)

/-- Settles O5, by the agreement of the match and mask table with the decoder's two checks. -/
theorem legalExactlyWhenRowMatches : Obligations.LegalExactlyWhenRowMatches := by
  refine ⟨isOk_decode_iff_wellFormed, fun cw h => ?_, fun cw h => ?_, fun cw h => ?_⟩
  · obtain ⟨why, hw⟩ := decode_of_not_wellFormed cw h
    exact raisesIllegal_of_decode hw
  · exact raisesIllegal_of_decode (decode_reserved h)
  · exact (isOk_decode_iff_wellFormed cw).2 (wellFormed_of_opcode_init h)

/-! ## The order of decoding (R91) -/

/-- The decoder's must-be-zero check, format by format, is the one R85 states. -/
theorem mbzSet_iff (cw : CommandWord) : mbzSet (formatOf (opField cw)) cw = true ↔ MustBeZeroBitSet cw := by
  unfold MustBeZeroBitSet
  rw [← opField]
  by_cases h1 : opField cw = 0x01#8
  · simp [h1, formatOf, mbzSet]
  by_cases h2 : opField cw = 0x02#8
  · simp [h2, formatOf, mbzSet]
  by_cases h3 : opField cw = 0x03#8
  · simp [h3, formatOf, mbzSet]
  · simp [h1, h2, h3, formatOf, mbzSet]

theorem decode_mustBeZero {cw : CommandWord} (h7 : ¬ 0x07#8 < opField cw) (hm : MustBeZeroBitSet cw) :
    decode cw = .illegal .mustBeZero := by
  rw [decode, if_neg h7, if_pos ((mbzSet_iff cw).2 hm)]

theorem decode_command {cw : CommandWord} (h7 : ¬ 0x07#8 < opField cw) (hm : ¬ MustBeZeroBitSet cw) :
    decode cw = .ok (commandOf cw) := by
  rw [decode, if_neg h7, if_neg (mt (mbzSet_iff cw).1 hm)]

/-- A word of format Z with no must-be-zero bit set is its command's opcode alone. -/
theorem encode_commandOf_format_z {cw : CommandWord} {i : Instr} (hc : commandOf cw = i)
    (ho : opField cw = opcodeOf i) (hi : encode i = field (opcodeOf i) 144) (hz : mbzSet .z cw = false) :
    opcodeOf (commandOf cw) = opField cw ∧ encode (commandOf cw) = cw := by
  rw [hc, hi, ← ho]
  exact ⟨rfl, (word_of_zero_low cw (bne_eq_false_iff_eq.1 hz)).symm⟩

/-- With no must-be-zero bit set, the command carries the word's opcode and every other bit of it. -/
theorem encode_commandOf {cw : CommandWord} (h7 : ¬ 0x07#8 < opField cw) (hm : ¬ MustBeZeroBitSet cw) :
    opcodeOf (commandOf cw) = opField cw ∧ encode (commandOf cw) = cw := by
  have hz : mbzSet (formatOf (opField cw)) cw = false := Bool.not_eq_true _ ▸ mt (mbzSet_iff cw).1 hm
  rcases opcode_cases _ h7 with e | e | e | e | e | e | e | e <;> rw [e] at hz
  · exact encode_commandOf_format_z (commandOf_nop e) e rfl hz
  · rw [commandOf_init e, encode, ← e]
    exact ⟨e.symm, (word_split_k cw).symm⟩
  · rw [commandOf_absb e, encode, ← e]
    exact ⟨e.symm, (word_of_zero_middle (n := 8) rfl cw (bne_eq_false_iff_eq.1 hz)).symm⟩
  · rw [commandOf_absw e, encode, ← e]
    exact ⟨e.symm, (word_of_zero_middle (n := 64) rfl cw (bne_eq_false_iff_eq.1 hz)).symm⟩
  · exact encode_commandOf_format_z (commandOf_final e) e rfl hz
  · exact encode_commandOf_format_z (commandOf_rdig e) e rfl hz
  · exact encode_commandOf_format_z (commandOf_rdst e) e rfl hz
  · exact encode_commandOf_format_z (commandOf_rst e) e rfl hz

/-- Settles O6, by the three branches of the decoder in their order. -/
theorem decodeOrder : Obligations.DecodeOrder :=
  ⟨fun _ => decode_reserved, fun _ => decode_mustBeZero,
    fun cw h7 hm => ⟨commandOf cw, decode_command h7 hm, encode_commandOf h7 hm⟩, fun _ _ => raisesIllegal_of_decode⟩

end Sys2Proof.Proofs
end

section
/-! The word operations and the Permutation (40_permutation.md R110 to R116): the laws of ADD64, ROTL64 and XOR64, SIPROUND
in one assignment, its inverse round, and ROUNDS as repeated SIPROUND. -/

namespace Sys2Proof.Proofs

open Sys2Proof Sys2Proof.Machine Sys2Proof.Laws

/-! ## The word operations (R110 to R112) -/

/-- What an addition adds is taken away again by subtraction. -/
theorem add64_sub_cancel (a b : Word) : add64 a b - b = a := BitVec.add_sub_cancel a b

/-- What was subtracted is given back by addition. -/
theorem add64_of_sub (a b : Word) : add64 (a - b) b = a := BitVec.sub_add_cancel a b

@[simp] theorem xor64_zero (a : Word) : xor64 a 0#64 = a := BitVec.xor_zero

theorem xor64_self (a : Word) : xor64 a a = 0#64 := BitVec.xor_self

theorem xor64_comm (a b : Word) : xor64 a b = xor64 b a := BitVec.xor_comm a b

theorem xor64_assoc (a b c : Word) : xor64 (xor64 a b) c = xor64 a (xor64 b c) := BitVec.xor_assoc a b c

/-- An exclusive or with a word is undone by the same exclusive or. -/
theorem xor64_xor64_cancel (a b : Word) : xor64 (xor64 a b) b = a := by
  rw [xor64_assoc, xor64_self, xor64_zero]

/-- Settles O8: ADD64 is addition of bit vectors, and the corner cases are three sums of constants. -/
theorem addWraps : Obligations.AddWraps :=
  ⟨BitVec.toNat_add, fun a => BitVec.add_zero a, by decide, by decide, by decide⟩

/-- Settles O10. -/
theorem xorBitwise : Obligations.XorBitwise :=
  ⟨fun _ _ _ _ => BitVec.getLsbD_xor, fun a => ⟨xor64_zero a, xor64_self a⟩,
    fun a b => ⟨xor64_xor64_cancel a b, xor64_comm a b⟩, xor64_assoc⟩

/-- Bit `i` of a rotation comes from bit `i - n`, counted modulo 64 (R111). -/
theorem getLsbD_rotl64 (a : Word) {n i : Nat} (hn : n ≤ 64) (hi : i < 64) :
    (rotl64 a n).getLsbD i = a.getLsbD ((i + (64 - n)) % 64) := by
  change (a.rotateLeftAux n).getLsbD i = _
  by_cases h : i < n
  · rw [BitVec.getLsbD_rotateLeftAux_of_lt h, Nat.mod_eq_of_lt (by omega), Nat.add_comm]
  · have hmod : (i + (64 - n)) % 64 = i - n := by omega
    rw [BitVec.getLsbD_rotateLeftAux_of_ge (by omega), hmod]
    simp [hi]

/-- A rotation is undone by the rotation through the rest of the word. -/
theorem rotl64_rotl64_cancel (a : Word) {m n : Nat} (h : m + n = 64) : rotl64 (rotl64 a m) n = a := by
  apply BitVec.eq_of_getLsbD_eq
  intro i hi
  have hback : ((i + (64 - n)) % 64 + (64 - m)) % 64 = i := by omega
  rw [getLsbD_rotl64 _ (by omega) hi, getLsbD_rotl64 _ (by omega) (by omega), hback]

/-! ## SIPROUND in one assignment (R114) -/

/-- Settles O11: each step writes one word from the words before it, so naming what the steps wrote gives `t0` to `t4`
and `a'` to `d'`. -/
theorem sipRoundIsSimultaneous : Obligations.SipRoundIsSimultaneous := fun _ => rfl

/-! ## The inverse round (R116) -/

/-- The inverse round: the fourteen inverse steps of R113 in reverse order (R116 item 1). -/
def sipRoundInverse (y : Words) : Words :=
  let y := { y with v2 := rotl64 y.v2 32 }
  let y := { y with v1 := xor64 y.v1 y.v2 }
  let y := { y with v1 := rotl64 y.v1 47 }
  let y := { y with v2 := y.v2 - y.v1 }
  let y := { y with v3 := xor64 y.v3 y.v0 }
  let y := { y with v3 := rotl64 y.v3 43 }
  let y := { y with v0 := y.v0 - y.v3 }
  let y := { y with v3 := xor64 y.v3 y.v2 }
  let y := { y with v3 := rotl64 y.v3 48 }
  let y := { y with v2 := y.v2 - y.v3 }
  let y := { y with v0 := rotl64 y.v0 32 }
  let y := { y with v1 := xor64 y.v1 y.v0 }
  let y := { y with v1 := rotl64 y.v1 51 }
  { y with v0 := y.v0 - y.v1 }

theorem sipRoundInverse_sipRound (x : Words) : sipRoundInverse (sipRound x) = x := by
  simp only [sipRound, sipRoundInverse, add64_sub_cancel, xor64_xor64_cancel, rotl64_rotl64_cancel]

theorem sipRound_sipRoundInverse (y : Words) : sipRound (sipRoundInverse y) = y := by
  simp only [sipRound, sipRoundInverse, add64_of_sub, xor64_xor64_cancel, rotl64_rotl64_cancel]

/-- Settles O12: the inverse round undoes SIPROUND on either side, and the fixed point is one evaluation. -/
theorem sipRoundIsBijection : Obligations.SipRoundIsBijection :=
  ⟨Function.bijective_iff_has_inverse.2 ⟨sipRoundInverse, sipRoundInverse_sipRound, sipRound_sipRoundInverse⟩,
    by decide⟩

/-! ## ROUNDS (R115) -/

/-- `repeat n times` is Mathlib's iterate. -/
theorem repeatTimes_eq_iterate {α : Type} (f : α → α) (n : Nat) (x : α) : repeatTimes f n x = f^[n] x := by
  induction n generalizing x with
  | zero => rfl
  | succ n ih => exact ih (f x)

theorem rounds_eq_iterate (n : Byte) (x : Words) : rounds n x = sipRound^[n.toNat] x :=
  repeatTimes_eq_iterate sipRound n.toNat x

/-- A count below 255 has a successor that does not wrap. -/
theorem toNat_succ_of_ne_255 {n : Byte} (h : n ≠ 255#8) : (n + 1#8).toNat = n.toNat + 1 := by
  have hne : n.toNat ≠ 255 := fun h255 => h (BitVec.eq_of_toNat_eq h255)
  exact BitVec.toNat_add_of_lt (by change n.toNat + 1 < 256; omega)

/-- Settles O13: one more iteration is one more SIPROUND after the others. -/
theorem roundsRepeatSipRound : Obligations.RoundsRepeatSipRound := by
  refine ⟨fun x => rfl, fun n x hn => ?_⟩
  rw [rounds_eq_iterate, rounds_eq_iterate, toNat_succ_of_ne_255 hn, Function.iterate_succ_apply']

end Sys2Proof.Proofs
end

section
/-! The Key Schedule (41_key_schedule.md R130 to R132): the bytes of the key words, the INIT word read back, and the state
that INIT leaves. -/

namespace Sys2Proof.Proofs

open Sys2Proof Sys2Proof.Machine Sys2Proof.Laws

/-- A byte of `le64` that the sequence holds is the sequence's own. -/
theorem some_byteOf_le64 {bs : List Byte} {i : Nat} (hi : i < 8) (hlen : i < bs.length) :
    some (byteOf (le64 bs) i) = bs[i]? := by
  rw [byteOf_le64 bs i hi, List.getElem?_eq_getElem hlen, Option.getD_some]

/-- Every word with opcode 0x01 is an INIT, with its operands at the places of R82. -/
theorem decode_of_opcode_init {cw : CommandWord} (h : opField cw = 0x01#8) :
    decode cw = .ok (.init (k0Field cw) (k1Field cw) (cField cw) (dField cw)) := by
  rw [decode_of_wellFormed cw (wellFormed_of_opcode_init h), commandOf_init h]

theorem decode_encode_init (k0 k1 : Word) (c d : Byte) :
    decode (encode (.init k0 k1 c d)) = .ok (.init k0 k1 c d) := by
  obtain ⟨hop, hd, hc, hk1, hk0⟩ := fields_encode_init k0 k1 c d
  rw [decode_of_opcode_init hop, hd, hc, hk1, hk0]

/-- INIT is legal in every phase (R191), so it always takes its effect. -/
theorem exec_init (k0 k1 : Word) (c d : Byte) (s : State) :
    exec (.init k0 k1 c d) s = .next (effect (.init k0 k1 c d) s) := by
  have hlegal : legal (.init k0 k1 c d) s.phase = true := rfl
  rw [exec_eq, if_pos hlegal]

/-- Settles O14: a key of 16 bytes holds the eight bytes of either key word, and the INIT word read back gives its
fields. -/
theorem keyWordsLittleEndian : Obligations.KeyWordsLittleEndian := by
  refine ⟨fun key hlen i hi => ⟨?_, ?_⟩, fun k0 k1 c d => ?_⟩
  · have hbyte := some_byteOf_le64 (bs := key.take 8) hi (by simp; omega)
    rwa [List.getElem?_take_of_lt hi] at hbyte
  · have hbyte := some_byteOf_le64 (bs := key.drop 8) hi (by simp; omega)
    rwa [List.getElem?_drop] at hbyte
  · obtain ⟨-, -, -, hk1, hk0⟩ := fields_encode_init k0 k1 c d
    exact ⟨hk0, hk1, decode_encode_init k0 k1 c d⟩

/-- Settles O15: the effect of INIT names every register but ERR, and the decoder asks nothing more of opcode 0x01. -/
theorem initBuildsState : Obligations.InitBuildsState :=
  ⟨exec_init, fun _ => decode_of_opcode_init⟩

end Sys2Proof.Proofs
end

section
/-! The Block Processor (42_block_processor.md R140 to R148): the compress-block step, the absorb commands byte by byte and
word by word, the tail word, and a whole message. -/

namespace Sys2Proof.Proofs

open Sys2Proof Sys2Proof.Machine Sys2Proof.Laws

/-! ## Words of the spec and the compress-block step (R140) -/

/-- Settles O1: eleven fixed words, each by one evaluation of the decoder. -/
theorem decodeOfSpecWords : Obligations.DecodeOfSpecWords := by
  unfold Obligations.DecodeOfSpecWords
  decide

/-- With m = 0 both XORs change nothing. -/
theorem compress_zero_word (cr : Byte) (x : Words) : compress cr 0#64 x = rounds cr x := by
  simp only [compress, xor64_zero]

/-- Settles O17: the definition is R140 read in order, CR = 0 makes no round, and m = 0 changes no word. -/
theorem compressStep : Obligations.CompressStep :=
  ⟨fun _ _ _ => rfl, fun _ _ => rfl, compress_zero_word⟩

/-! ## What an absorb command does outside ABSORBING, and its must-be-zero bits (R85, R191) -/

/-- A command that is not legal in the current PHASE raises SequenceError (R191, R212). -/
theorem raisesSequence_of_not_legal {i : Instr} {s : State} (h : legal i s.phase = false) : RaisesSequence i s := by
  rw [RaisesSequence, exec_eq, h]
  rfl

theorem raisesSequence_absorb {i : Instr} {s : State} (hi : isAbsorb i = true) (hp : s.phase ≠ .absorbing) :
    RaisesSequence i s :=
  raisesSequence_of_not_legal (Bool.eq_false_iff.2 fun hl => hp (phase_of_legal_absorb hi hl))

/-- A word of an assigned opcode is its command where the must-be-zero field `x` of its format is zero, and Illegal
where it is not. -/
theorem decode_or_raisesIllegal {n : Nat} {x : BitVec n} {cw : CommandWord} {i : Instr} (h7 : ¬ 0x07#8 < opField cw)
    (hm : MustBeZeroBitSet cw ↔ x ≠ 0#n) (hc : commandOf cw = i) :
    (x = 0#n → decode cw = .ok i) ∧ (x ≠ 0#n → RaisesIllegal cw) :=
  ⟨fun hx => hc ▸ decode_command h7 fun hbit => hm.1 hbit hx,
    fun hx => raisesIllegal_of_decode (decode_mustBeZero h7 (hm.2 hx))⟩

theorem mustBeZeroBitSet_of_opcode_absb {cw : CommandWord} (h : opField cw = 0x02#8) :
    MustBeZeroBitSet cw ↔ cw.extractLsb' 8 136 ≠ 0#136 := by
  rw [← mbzSet_iff, h]
  exact bne_iff_ne

theorem mustBeZeroBitSet_of_opcode_absw {cw : CommandWord} (h : opField cw = 0x03#8) :
    MustBeZeroBitSet cw ↔ cw.extractLsb' 64 80 ≠ 0#80 := by
  rw [← mbzSet_iff, h]
  exact bne_iff_ne

/-! ## ABSB (R141) -/

theorem exec_absb {b : Byte} {s : State} (hp : s.phase = .absorbing) :
    exec (.absb b) s = .next (respond 0#64 (absorbByte s b)) :=
  exec_absorb rfl hp

/-- Settles O18: the byte joins BUF, or completes a block where it is the eighth. -/
theorem absbAbsorbsOneByte : Obligations.AbsbAbsorbsOneByte := by
  refine ⟨fun b s hp hr => ?_, fun b s hp hr => ?_, fun b s hp => raisesSequence_absorb rfl hp, fun cw hop => ?_⟩
  · rw [exec_absb hp, absorbByte_of_lt (Nat.ne_of_lt hr)]
    rfl
  · rw [exec_absb hp, absorbByte_of_eq hr]
    rfl
  · have h7 : ¬ 0x07#8 < opField cw := by rw [opField, hop]; decide
    exact decode_or_raisesIllegal h7 (mustBeZeroBitSet_of_opcode_absb hop) (commandOf_absb hop)

/-! ## ABSW (R142) -/

/-- One ABSB per byte carries the bytes themselves. -/
theorem carried_abss (bs : List Byte) : (abss bs).flatMap carried = bs := by
  rw [abss, List.flatMap_map]
  exact List.flatMap_singleton' bs

theorem isAbsorb_of_mem_abss {bs : List Byte} {i : Instr} (h : i ∈ abss bs) : isAbsorb i = true := by
  obtain ⟨b, -, rfl⟩ := List.mem_map.1 h
  rfl

/-- A string of ABSB in ABSORBING absorbs its bytes, with one response each (R183). -/
theorem execAll_abss (bs : List Byte) {s : State} (hp : s.phase = .absorbing) :
    execAll (abss bs) s =
      .next { absorbBytes bs s with responses := s.responses ++ List.replicate (abss bs).length okZero } := by
  rw [execAll_absorbs _ s (fun _ => isAbsorb_of_mem_abss) hp, carried_abss]

theorem exec_absw {w : Word} {s : State} (hp : s.phase = .absorbing) :
    exec (.absw w) s = .next (respond 0#64 (absorbBytes (wordBytes w) s)) :=
  exec_absorb rfl hp

/-- ABSW leaves what eight ABSB leave, but for the responses. -/
theorem exec_absw_eq_execAll_abss (w : Word) {s : State} (hp : s.phase = .absorbing) :
    ∃ t, execAll (abss (wordBytes w)) s = .next t ∧
      exec (.absw w) s = .next { t with responses := s.responses ++ [okZero] } := by
  refine ⟨_, execAll_abss (wordBytes w) hp, ?_⟩
  rw [exec_absw hp, respond, absorbBytes_responses]

theorem chunkWord_aligned {w buf : Word} {len : Byte} (h : pending len = 0) :
    chunkWord w buf len = ⟨buf, len + 8#8, some w⟩ := if_pos h

theorem chunkWord_split {w buf : Word} {len : Byte} (h : pending len ≠ 0) :
    chunkWord w buf len = ⟨w >>> (64 - 8 * pending len), len + 8#8, some (buf ||| (w <<< (8 * pending len)))⟩ :=
  if_neg h

/-- With nothing pending, a buffer that is clear above its pending bytes is empty. -/
theorem buf_eq_zero_of_bufferClearAbove {s : State} (h : BufferClearAbove s) (h0 : pending s.len = 0) :
    s.buf = 0#64 :=
  word_ext_bytes fun i hi => by rw [h.1 i hi (by omega), byteOf_zero]

/-- ABSW in ABSORBING is the chunker's word input, where BUF is clear above its pending bytes (R34 item 4). -/
theorem exec_absw_chunkWord {w : Word} {s : State} (hp : s.phase = .absorbing) (hb : BufferClearAbove s) :
    exec (.absw w) s = .next (respond 0#64 (takeChunk (chunkWord w s.buf s.len) s)) := by
  rw [exec_absw hp, absorbBytes_wordBytes w s hb]

/-- Settles O19: ABSW and eight ABSB absorb the same bytes, and the chunker's word input gives the closed form with
nothing pending and with some bytes pending. -/
theorem abswIsEightAbsb : Obligations.AbswIsEightAbsb := by
  refine ⟨fun w s hp => exec_absw_eq_execAll_abss w hp, fun w s hp hb => ⟨fun hr => ?_, fun hr => ?_⟩,
    fun w s hp => raisesSequence_absorb rfl hp, fun cw hop => ?_⟩
  · rw [exec_absw_chunkWord hp hb, chunkWord_aligned hr, buf_eq_zero_of_bufferClearAbove hb hr]
    rfl
  · rw [exec_absw_chunkWord hp hb, chunkWord_split hr]
    rfl
  · have h7 : ¬ 0x07#8 < opField cw := by rw [opField, hop]; decide
    exact decode_or_raisesIllegal h7 (mustBeZeroBitSet_of_opcode_absw hop) (commandOf_absw hop)

/-! ## The tail word (R143) -/

/-- The tail word byte by byte: the length joins byte 7 and no other. -/
theorem byteOf_tailWord (buf : Word) (len : Byte) {i : Nat} (hi : i < 8) :
    byteOf (tailWord buf len) i = if i = 7 then byteOf buf 7 ||| len else byteOf buf i := by
  rw [tailWord, byteOf_or, byteOf_shiftLeft _ 7 i hi]
  by_cases h7 : i = 7
  · subst h7
    simp [byteOf_setWidth]
  · have hlt : i < 7 := by omega
    simp [h7, hlt]

/-- A byte above the low 56 bits of a word, byte by byte. -/
theorem byteOf_append_low (len : Byte) (buf : Word) {i : Nat} (hi : i < 8) :
    byteOf (len ++ buf.extractLsb' 0 56) i = if i = 7 then len else byteOf buf i := by
  apply BitVec.eq_of_getLsbD_eq
  intro j hj
  rw [getLsbD_byteOf, BitVec.getLsbD_append]
  by_cases h7 : i = 7
  · subst h7
    simp [hj]
  · have hlow : 8 * i + j < 56 := by omega
    rw [if_neg h7, getLsbD_byteOf]
    simp [hlow, hj]

/-- Settles O20: where byte 7 of BUF is clear the length byte is all of byte 7, and the bytes below are those of BUF. -/
theorem tailWordLayout : Obligations.TailWordLayout := by
  refine ⟨fun _ _ => rfl, fun s ⟨habove, htop⟩ => ?_⟩
  have hlow : ∀ i < 7, byteOf (tailWord s.buf s.len) i = byteOf s.buf i := fun i hi => by
    rw [byteOf_tailWord _ _ (by omega), if_neg (by omega)]
  have hseven : byteOf (tailWord s.buf s.len) 7 = s.len := by
    rw [byteOf_tailWord _ _ (by omega), if_pos rfl, htop, BitVec.zero_or]
  refine ⟨word_ext_bytes fun i hi => ?_, fun i hi _ => hlow i hi, fun i hi hle => ?_, hseven⟩
  · rw [byteOf_append_low _ _ hi]
    split
    next h7 => rw [h7, hseven]
    next h7 => exact hlow i (by omega)
  · rw [hlow i hi, habove i (by omega) hle]

/-! ## A whole message (R148) -/

/-- INIT followed by commands runs them from the state INIT leaves. -/
theorem execAll_init_cons (k0 k1 : Word) (c d : Byte) (is : List Instr) (s : State) :
    execAll (.init k0 k1 c d :: is) s = execAll is (effect (.init k0 k1 c d) s) := by
  rw [execAll, exec_init]

/-- Settles O21: INIT empties the chunker, and the absorb commands then absorb the bytes they carry as one message,
whatever their grouping. -/
theorem chunkerWholeMessage : Obligations.ChunkerWholeMessage := by
  intro k0 k1 c d absorbs s hi
  have hmsg := absorbBytes_message (absorbs.flatMap carried) (effect (.init k0 k1 c d) s) rfl rfl
  refine ⟨_, (execAll_init_cons k0 k1 c d absorbs s).trans (execAll_absorbs absorbs _ hi rfl), ?_⟩
  rw [hmsg]
  refine ⟨rfl, rfl, rfl, rfl, rfl, rfl, rfl, rfl, rfl, ?_⟩
  simp [effect, List.replicate_succ]

end Sys2Proof.Proofs
end

section
/-! The Finalizer (43_finalizer.md R160 to R166): FINAL and RDIG, the order of the digest bytes, the digest of a
transaction as a function of the bytes it carries, and that function without rounds. -/

namespace Sys2Proof.Proofs

open Sys2Proof Sys2Proof.Machine Sys2Proof.Laws

/-! ## The commands FINAL and RDIG (R163, R164) -/

/-- A command that is legal in the current PHASE takes its effect (R191). -/
theorem exec_of_legal {i : Instr} {s : State} (h : legal i s.phase = true) : exec i s = .next (effect i s) := by
  rw [exec_eq, if_pos h]

theorem legal_final_iff {p : Phase} : legal .final p = true ↔ p = .absorbing := by
  cases p <;> decide

theorem legal_rdig_iff {p : Phase} : legal .rdig p = true ↔ p = .finalized := by
  cases p <;> decide

/-- A word of a format Z opcode is its command where every bit below the opcode is zero, and Illegal where one is set
(R81, R85). -/
theorem decode_or_raisesIllegal_of_format_z {op : Byte} {cw : CommandWord} {i : Instr} (hop : opField cw = op)
    (h7 : ¬ 0x07#8 < op) (hz : formatOf op = .z) (hc : commandOf cw = i) :
    (cw.extractLsb' 0 144 = 0#144 → decode cw = .ok i) ∧ (cw.extractLsb' 0 144 ≠ 0#144 → RaisesIllegal cw) := by
  subst hop
  have hm : MustBeZeroBitSet cw ↔ cw.extractLsb' 0 144 ≠ 0#144 := by
    rw [← mbzSet_iff, hz]
    exact bne_iff_ne
  exact decode_or_raisesIllegal h7 hm hc

theorem exec_final {s : State} (hp : s.phase = .absorbing) :
    exec .final s = .next (respond (finish s).digest (finish s)) :=
  exec_of_legal (legal_final_iff.2 hp)

/-- Settles O22: the effect of FINAL names the tail block, the rounds and the fold in the order of R163. -/
theorem finalProducesDigest : Obligations.FinalProducesDigest := by
  refine ⟨fun s y z hp hy hz => ?_, fun s hp => ?_, fun cw hop => ?_⟩
  · subst hy hz
    exact exec_final hp
  · exact raisesSequence_of_not_legal (Bool.eq_false_iff.2 (mt legal_final_iff.1 hp))
  · exact decode_or_raisesIllegal_of_format_z hop (by decide) rfl (commandOf_final hop)

/-- Settles O23: the effect of RDIG is its response alone. -/
theorem rdigReadsDigest : Obligations.RdigReadsDigest := by
  refine ⟨fun s hp => exec_of_legal (legal_rdig_iff.2 hp), fun s hp => ?_, fun cw hop => ?_⟩
  · exact raisesSequence_of_not_legal (Bool.eq_false_iff.2 (mt legal_rdig_iff.1 hp))
  · exact decode_or_raisesIllegal_of_format_z hop (by decide) rfl (commandOf_rdig hop)

/-! ## The digest bytes (R162) -/

/-- The digest bytes are those of the word operand in the opposite order (R10, R82). -/
theorem beBytes_eq_reverse (w : Word) : beBytes w = (wordBytes w).reverse := rfl

theorem getElem?_beBytes (w : Word) {j : Nat} (hj : j < 8) : (beBytes w)[j]? = some (byteOf w (7 - j)) := by
  rw [beBytes_eq_reverse, List.getElem?_reverse hj, length_wordBytes, getElem?_wordBytes w _ (by omega)]

/-- Settles O24: byte j stands where byte 7 - j of the little-endian order does. -/
theorem digestBytesBigEndian : Obligations.DigestBytesBigEndian := by
  refine fun w => ⟨rfl, fun j hj => ?_, ?_⟩
  · have hbit : 56 - 8 * j = 8 * (7 - j) := by omega
    rw [getElem?_beBytes w hj, byteOf, hbit]
  · rw [beBytes_eq_reverse, List.reverse_reverse, le64_wordBytes]

/-! ## The digest of a whole message (R175, R198) -/

/-- The words that FINAL folds, from the key words and the message: the blocks in order, the tail block, FINALIZE. -/
def finalWords (cfg : Config) (k0 k1 : Word) (c d : Byte) (msg : List Byte) : Words :=
  finalize d (compress c (tailBlock msg) ((fullBlocks msg).foldl (fun x m => compress c m x) (keyInit cfg k0 k1)))

/-- The reference function is the fold of these words; its simultaneous round is SIPROUND (R114). -/
theorem sipHashCD_eq_foldWords (cfg : Config) (c d : Byte) (key msg : List Byte) :
    sipHashCD cfg c d key msg =
      foldWords (finalWords cfg (le64 (key.take 8)) (le64 ((key.drop 8).take 8)) c d msg) := by
  have hround : sipRoundSimultaneous = sipRound := (funext sipRoundIsSimultaneous).symm
  have hblock : refBlock c = fun x m => compress c m x := by
    funext x m
    rw [refBlock, hround]
    rfl
  rw [sipHashCD, hblock, hround]
  rfl

/-- The chunker's TAILWORD after a whole message is the tail block of R175. -/
theorem tailWord_message (msg : List Byte) :
    tailWord (le64 (trailing msg)) (BitVec.ofNat 8 msg.length) = tailBlock msg := by
  have hlen : (BitVec.ofNat 8 msg.length).setWidth 64 = BitVec.ofNat 64 (msg.length % 256) := by
    apply BitVec.eq_of_toNat_eq
    simp
  rw [tailWord, hlen, tailBlock]

/-- A transaction ends in FINALIZED with the digest of the bytes it carried, however they were grouped and whatever came
before it (R198). -/
theorem execAll_transaction (k0 k1 : Word) (c d : Byte) {absorbs : List Instr} (s : State)
    (hi : ∀ i ∈ absorbs, isAbsorb i = true) :
    ∃ t, execAll (transaction k0 k1 c d absorbs) s = .next t ∧
      t.digest = foldWords (finalWords Config.standard k0 k1 c d (absorbs.flatMap carried)) ∧
      t.phase = .finalized ∧ t.err = s.err ∧ t.inputs = s.inputs ∧
      t.responses = s.responses ++ List.replicate (absorbs.length + 1) okZero ++ [response 0#8 t.digest] := by
  obtain ⟨u, hu, hv, hlen, hbuf, hcr, hfr, hp, -, herr, hin, hresp⟩ := chunkerWholeMessage k0 k1 c d absorbs s hi
  have hfinal : execAll [.final] u = .next (respond (finish u).digest (finish u)) := by
    simp only [execAll, exec_final hp]
  refine ⟨_, (execAll_append _ [.final] s u hu).trans hfinal, ?_, rfl, herr, hin, ?_⟩
  · rw [respond_digest, finish_digest, hv, hlen, hbuf, hcr, hfr, tailWord_message, finalWords]
  · rw [respond_responses, finish_responses, respond_digest, hresp]

/-! ## No rounds at all (R163 corner case 2) -/

/-- Either key word goes into two of the four words, so the fold loses it. -/
theorem foldWords_keyInit (cfg : Config) (k0 k1 : Word) :
    foldWords (keyInit cfg k0 k1) = cfg.c0 ^^^ cfg.c1 ^^^ cfg.c2 ^^^ cfg.c3 := by
  calc foldWords (keyInit cfg k0 k1)
      = cfg.c0 ^^^ cfg.c1 ^^^ cfg.c2 ^^^ cfg.c3 ^^^ (k0 ^^^ k0) ^^^ (k1 ^^^ k1) := by
        simp only [foldWords, keyInit, xor64]; ac_rfl
    _ = cfg.c0 ^^^ cfg.c1 ^^^ cfg.c2 ^^^ cfg.c3 := by simp only [BitVec.xor_self, BitVec.xor_zero]

/-- With no round between them, the two XORs of a block cancel in the fold. -/
theorem foldWords_compress_zero (m : Word) (x : Words) : foldWords (compress 0#8 m x) = foldWords x := by
  obtain ⟨-, hzero, -⟩ := compressStep
  calc foldWords (compress 0#8 m x)
      = foldWords x ^^^ (m ^^^ m) := by simp only [hzero, foldWords, xor64]; ac_rfl
    _ = foldWords x := by rw [BitVec.xor_self, BitVec.xor_zero]

theorem foldWords_blocks_zero (ms : List Word) (x : Words) :
    foldWords (ms.foldl (fun x m => compress 0#8 m x) x) = foldWords x := by
  induction ms generalizing x with
  | nil => rfl
  | cons m ms ih => rw [List.foldl_cons, ih, foldWords_compress_zero]

theorem foldWords_finalize_zero (x : Words) : foldWords (finalize 0#8 x) = foldWords x ^^^ 0xff#64 := by
  obtain ⟨hzero, -⟩ := roundsRepeatSipRound
  simp only [finalize, hzero, foldWords, xor64]
  ac_rfl

/-- Without rounds the fold forgets the key and the message. -/
theorem foldWords_finalWords_zero (cfg : Config) (k0 k1 : Word) (msg : List Byte) :
    foldWords (finalWords cfg k0 k1 0#8 0#8 msg) = cfg.c0 ^^^ cfg.c1 ^^^ cfg.c2 ^^^ cfg.c3 ^^^ 0xff#64 := by
  rw [finalWords, foldWords_finalize_zero, foldWords_compress_zero, foldWords_blocks_zero, foldWords_keyInit]

/-- Settles O25: the reference function and a transaction fold the same words, and without rounds that fold is the XOR
of the constants and 0xff. -/
theorem zeroRoundsDigestIsConstant : Obligations.ZeroRoundsDigestIsConstant := by
  refine ⟨fun cfg key msg => ?_, fun k0 k1 absorbs s hi => ?_⟩
  · rw [sipHashCD_eq_foldWords, foldWords_finalWords_zero]
  · obtain ⟨t, ht, hdigest, -⟩ := execAll_transaction k0 k1 0#8 0#8 s hi
    refine ⟨t, ht, ?_⟩
    rw [hdigest, foldWords_finalWords_zero]
    decide

end Sys2Proof.Proofs
end

section
/-! The public API (44_public_api.md R175 to R183): the expansion's words read back and stepped through, a transaction on
the command port, the one-shot operations over it, ABSS, and INIT on a used core. -/

namespace Sys2Proof.Proofs

open Sys2Proof Sys2Proof.Machine Sys2Proof.Laws

/-! ## Commands on the port -/

/-- Every command's word is a legal word with the command's opcode and its must-be-zero bits zero. -/
theorem encoding_statement (i : Instr) : Encoding.Statement i := by
  cases i with
  | nop => exact Encoding.nop
  | init k0 k1 c d => exact Encoding.init k0 k1 c d
  | absb b => exact Encoding.absb b
  | absw w => exact Encoding.absw w
  | final => exact Encoding.final
  | rdig => exact Encoding.rdig
  | rdst => exact Encoding.rdst
  | rst => exact Encoding.rst

/-- The operands stand in the word where the decoder looks for them (R82). -/
theorem commandOf_encode (i : Instr) : commandOf (encode i) = i := by
  obtain ⟨hop, -, -⟩ := encoding_statement i
  cases i with
  | nop => exact commandOf_nop hop
  | init k0 k1 c d =>
    obtain ⟨-, hd, hc, hk1, hk0⟩ := fields_encode_init k0 k1 c d
    rw [commandOf_init hop, hd, hc, hk1, hk0]
  | absb b => rw [commandOf_absb hop, (fields_encode_absb b).2.1]
  | absw w => rw [commandOf_absw hop, (fields_encode_absw w).2.1]
  | final => exact commandOf_final hop
  | rdig => exact commandOf_rdig hop
  | rdst => exact commandOf_rdst hop
  | rst => exact commandOf_rst hop

theorem decode_encode (i : Instr) : decode (encode i) = .ok i := by
  obtain ⟨-, -, hwf⟩ := encoding_statement i
  rw [decode_of_wellFormed _ hwf, commandOf_encode]

/-- Commands presented on the port run in order, before anything else that stands there (R58, R90). -/
theorem runCommands_eq_execAll (is : List Instr) (s : State) : runCommands is s = execAll is s :=
  run_present is s s.inputs fun i _ => decode_encode i

/-- One command on the port is that command executed. -/
theorem runCommands_singleton (i : Instr) (s : State) : runCommands [i] s = exec i s := by
  obtain ⟨t, ht⟩ := exec_next i s
  simp only [runCommands_eq_execAll, execAll, ht]

/-! ## The newest response (R87) -/

theorem respCode_response (code : Byte) (data : Word) : respCode (response code data) = code := by
  have hdata : (data.setWidth 72).extractLsb' 64 8 = 0#8 := by
    simpa using extract_zext_above (w := 72) (m := 8) data 0 64 (by omega)
  rw [respCode, response, extract_or, extract_zext_same code 64 (by omega), hdata, BitVec.or_zero]

theorem respData_response (code : Byte) (data : Word) : respData (response code data) = data := by
  have hdata : (data.setWidth 72).extractLsb' 0 64 = data := by
    simpa using extract_zext_same (w := 72) data 0 (by omega)
  rw [respData, response, extract_or, extract_zext_below code 64 0 (by omega), hdata, BitVec.zero_or]

theorem lastData_of_responses {s : State} {rs : List ResponseWord} {code : Byte} {data : Word}
    (h : s.responses = rs ++ [response code data]) : lastData s = data := by
  rw [lastData, h, List.getLast?_concat]
  exact respData_response code data

theorem lastCode_of_responses {s : State} {rs : List ResponseWord} {code : Byte} {data : Word}
    (h : s.responses = rs ++ [response code data]) : lastCode s = code := by
  rw [lastCode, h, List.getLast?_concat]
  exact respCode_response code data

/-! ## A transaction on the port (R179, R198) -/

/-- With a 16-byte key the two key words are its first eight bytes and the rest. -/
theorem sipHashCD_of_key_length (cfg : Config) (c d : Byte) {key : List Byte} (msg : List Byte)
    (hkey : key.length = 16) :
    sipHashCD cfg c d key msg = foldWords (finalWords cfg (le64 (key.take 8)) (le64 (key.drop 8)) c d msg) := by
  have hrest : (key.drop 8).take 8 = key.drop 8 := List.take_of_length_le (by simp [hkey])
  rw [sipHashCD_eq_foldWords, hrest]

/-- Settles O27: the port runs the transaction's commands in order, FINAL folds the words of the bytes they carried, and
that fold is the reference function's. -/
theorem transactionComputesSipHash : Obligations.TransactionComputesSipHash := by
  intro c d key absorbs s hkey hi
  obtain ⟨t, hexec, hdigest, hphase, herr, hin, hresp⟩ :=
    execAll_transaction (le64 (key.take 8)) (le64 (key.drop 8)) c d s hi
  rw [← sipHashCD_of_key_length _ _ _ _ hkey] at hdigest
  rw [hdigest] at hresp
  exact ⟨t, (runCommands_eq_execAll _ s).trans hexec, hdigest, hphase, herr, hin, hresp⟩

/-! ## HASH (R176, R180) -/

/-- A 16-byte key and counts of 8 bits pass the boundary's checks, and the commands are a transaction whose absorb
commands are the message's bytes (R176). -/
theorem expandHash_of_key_length {key msg : List Byte} {c d : Nat} (hkey : key.length = 16) (hc : c < 256)
    (hd : d < 256) :
    expandHash ⟨key, msg, c, d⟩ = .next
      (transaction (le64 (key.take 8)) (le64 (key.drop 8)) (BitVec.ofNat 8 c) (BitVec.ofNat 8 d) (abss msg)) := by
  have hk0 : memRead8 key 0 = some (le64 (key.take 8)) := by simp [memRead8, hkey]
  have hk1 : memRead8 key 8 = some (le64 (key.drop 8)) := by
    rw [memRead8, if_pos (by omega), List.take_of_length_le (by simp [hkey])]
  simp only [expandHash, HashCall.keyLengthOk, HashCall.countsOk, hkey, hc, hd, hk0, hk1]
  rfl

/-- A key of another length is turned away before the counts are looked at (R180, R216). -/
theorem expandHash_of_key_length_ne {key msg : List Byte} {c d : Nat} (hkey : key.length ≠ 16) :
    expandHash ⟨key, msg, c, d⟩ = .fault .invalidKeyLength := by
  simp [expandHash, HashCall.keyLengthOk, hkey]

/-- A call with a key of another length leaves the whole system as it was (R180). -/
theorem hash_of_key_length_ne {c d : Nat} {sys : System} (hkey : sys.key.length ≠ 16) :
    sys.hash c d = (.fault .invalidKeyLength, sys) := by
  simp only [System.hash, expandHash_of_key_length_ne hkey]

/-- A call that passes the checks runs one transaction; its digest goes to the caller and to DIG. -/
theorem hash_of_key_length {c d : Nat} {sys : System} (hkey : sys.key.length = 16) (hc : c < 256) (hd : d < 256) :
    ∃ t : State,
      t.digest = sipHashCD Config.standard (BitVec.ofNat 8 c) (BitVec.ofNat 8 d) sys.key sys.msg ∧
      t.phase = .finalized ∧ t.err = sys.core.err ∧ t.inputs = sys.core.inputs ∧
      sys.hash c d = (.next (beBytes t.digest),
        { sys with core := t, dig := sys.dig.writeDigest (beBytes t.digest) }) := by
  obtain ⟨t, hrun, hdigest, hphase, herr, hin, hresp⟩ := transactionComputesSipHash (BitVec.ofNat 8 c)
    (BitVec.ofNat 8 d) sys.key (abss sys.msg) sys.core hkey fun _ => isAbsorb_of_mem_abss
  rw [carried_abss] at hdigest hresp
  refine ⟨t, hdigest, hphase, herr, hin, ?_⟩
  simp only [System.hash, expandHash_of_key_length hkey hc hd, hrun, lastData_of_responses hresp, hdigest]

/-- Settles O29: the digest of the transaction, byte by byte in the order of R162, is what the caller and DIG get. -/
theorem hashWritesDigest : Obligations.HashWritesDigest := by
  refine ⟨fun c d sys digest hkey hc hd hdigest => ⟨expandHash_of_key_length hkey hc hd, ?_⟩,
    fun c d sys hkey _ _ => ⟨expandHash_of_key_length_ne hkey, hash_of_key_length_ne hkey⟩⟩
  obtain ⟨t, ht, hphase, herr, hin, hhash⟩ := hash_of_key_length hkey hc hd
  rw [← hdigest] at ht
  rw [ht] at hhash
  obtain ⟨hlen, hbyte, -⟩ := digestBytesBigEndian digest
  refine ⟨_, hhash, rfl, rfl, ht, hphase, herr, hin, fun j hj => ?_, fun a ha => read_outside _ ha⟩
  rw [read_writeDigest _ hlen, hbyte j hj]

/-- HASH with a 16-byte key and counts of 8 bits returns the digest bytes of SipHashCD. -/
theorem hash_result {c d : Nat} {sys : System} (hkey : sys.key.length = 16) (hc : c < 256) (hd : d < 256) :
    (sys.hash c d).1 =
      .next (beBytes (sipHashCD Config.standard (BitVec.ofNat 8 c) (BitVec.ofNat 8 d) sys.key sys.msg)) := by
  obtain ⟨t, ht, -, -, -, hhash⟩ := hash_of_key_length hkey hc hd
  rw [hhash, ht]

/-- Settles O30: the shorthands are HASH at counts (1, 3) and (2, 4) by definition. -/
theorem shorthandDigests : Obligations.ShorthandDigests :=
  ⟨fun _ => ⟨rfl, rfl⟩,
    fun _ hkey => ⟨hash_result hkey (by decide) (by decide), hash_result hkey (by decide) (by decide)⟩,
    fun _ hkey => ⟨hash_of_key_length_ne hkey, hash_of_key_length_ne hkey⟩⟩

/-- Settles O31: the key's length alone decides, whatever its bytes. -/
theorem wrongKeyLengthTouchesNothing : Obligations.WrongKeyLengthTouchesNothing :=
  ⟨fun _ _ _ hkey _ _ => hash_of_key_length_ne hkey, rfl, fun _ _ _ hkey hc hd => ⟨_, hash_result hkey hc hd⟩⟩

/-! ## ABSS (R183) -/

/-- ABSS goes on past a byte that ABSB absorbs. -/
theorem issueAbss_cons_absorbing (b : Byte) (bytes : List Byte) {s : State} (hp : s.phase = .absorbing) :
    issueAbss (b :: bytes) s = issueAbss bytes (respond 0#64 (absorbByte s b)) := by
  have hcode : lastCode (respond 0#64 (absorbByte s b)) = 0#8 := lastCode_of_responses rfl
  simp only [issueAbss, runCommands_singleton, exec_absb hp, if_pos hcode]

/-- ABSS stops at a byte whose ABSB raises SequenceError. -/
theorem issueAbss_cons_not_absorbing (b : Byte) (bytes : List Byte) {s : State} (hp : s.phase ≠ .absorbing) :
    issueAbss (b :: bytes) s = exec (.absb b) s := by
  have hraise : exec (.absb b) s = .next (raise .sequenceError s) := raisesSequence_absorb rfl hp
  have hcode : lastCode (raise .sequenceError s) = 2#8 := lastCode_of_responses rfl
  simp only [issueAbss, runCommands_singleton, hraise, hcode]
  rfl

theorem issueAbss_absorbing (bytes : List Byte) {s : State} (hp : s.phase = .absorbing) :
    issueAbss bytes s = execAll (abss bytes) s := by
  induction bytes generalizing s with
  | nil => rfl
  | cons b bytes ih =>
    rw [issueAbss_cons_absorbing b bytes hp, ih (by simpa using hp)]
    simp only [abss, List.map_cons, execAll, exec_absb hp]

/-- Settles O33: in ABSORBING no ABSB faults, and in another phase the first one does. -/
theorem abssAbsorbsOrStops : Obligations.AbssAbsorbsOrStops :=
  ⟨fun bytes _ hp => issueAbss_absorbing bytes hp, fun b bytes _ hp => issueAbss_cons_not_absorbing b bytes hp,
    fun _ => rfl⟩

/-! ## INIT starts afresh (R181) -/

/-- Settles O16: the effect of INIT takes only ERR and the two ports from the state before it. -/
theorem initForgetsHistory : Obligations.InitForgetsHistory := by
  intro k0 k1 c d s₁ s₂ herr hin hresp
  rw [exec_init, exec_init]
  simp only [effect, respond, herr, hin, hresp]

end Sys2Proof.Proofs
end

section
/-! The Sequencer (45_sequencer.md R190 to R196): the step that runs a command, PHASE after it, the one response it gives,
and the housekeeping commands NOP, RDST and RST. -/

namespace Sys2Proof.Proofs

open Sys2Proof Sys2Proof.Machine Sys2Proof.Laws

/-! ## PHASE (R190) -/

/-- A command out of sequence is one of the pairs that leave PHASE. -/
theorem nextPhase_of_not_legal {i : Instr} {p : Phase} (h : legal i p = false) : nextPhase i p = p := by
  cases i with
  | absb b | absw w | rdig => rfl
  | final =>
    cases p with
    | idle | finalized => rfl
    | absorbing => cases h
  | nop | init k0 k1 c d | rdst | rst => cases h

theorem effect_phase {i : Instr} {s : State} (h : legal i s.phase = true) :
    (effect i s).phase = nextPhase i s.phase := by
  cases i with
  | nop | init k0 k1 c d | absb b | rdig | rdst | rst => rfl
  | absw w => exact absorbBytes_phase (wordBytes w) s
  | final => rw [legal_final_iff.1 h]; rfl

/-- Every command moves PHASE by the table, in sequence or not. -/
theorem exec_phase {i : Instr} {s t : State} (h : exec i s = .next t) : t.phase = nextPhase i s.phase := by
  rcases exec_cases h with ⟨hl, rfl⟩ | ⟨hl, rfl⟩
  · exact effect_phase hl
  · exact (nextPhase_of_not_legal hl).symm

/-- Of all commands only RST leads to IDLE from another phase (R194). -/
theorem rst_of_nextPhase_idle {i : Instr} {p : Phase} (hp : p ≠ .idle) (h : nextPhase i p = .idle) : i = .rst := by
  cases i with
  | rst => rfl
  | init k0 k1 c d => cases h
  | final =>
    cases p with
    | idle => exact absurd rfl hp
    | absorbing | finalized => cases h
  | nop | absb b | absw w | rdig | rdst => exact absurd h hp

/-- The reset input, alone or during a command, resets the registers and takes its entry off the port (R240). -/
theorem step_of_nextIsReset {s : State} (h : NextIsReset s) :
    ∃ rest, step s = .next (resetRegisters { s with inputs := rest }) := by
  obtain ⟨rest, hin | ⟨cw, hin⟩⟩ := h
  · exact ⟨rest, step_reset hin⟩
  · exact ⟨rest, step_resetDuring hin⟩

/-- Settles O39: a command moves PHASE by the table, fault entry leaves it, and the reset value is IDLE. -/
theorem phaseTransitions : Obligations.PhaseTransitions := by
  refine ⟨fun i s => ?_, fun cw why s rest hd hin => ⟨_, step_illegal hin hd, rfl⟩, fun s hreset => ?_⟩
  · obtain ⟨t, ht⟩ := exec_next i s
    exact ⟨t, ht, exec_phase ht⟩
  · obtain ⟨rest, hstep⟩ := step_of_nextIsReset hreset
    exact ⟨_, hstep, rfl⟩

/-! ## The response (R191, R195, R212) -/

/-- The data of a command that completes, from the state `s` it finds and the state `t` it leaves (R195). -/
def responseData (i : Instr) (s t : State) : Word :=
  match i with
  | .nop => 0#64
  | .init _ _ _ _ => 0#64
  | .absb _ => 0#64
  | .absw _ => 0#64
  | .final => t.digest
  | .rdig => t.digest
  | .rdst => status s
  | .rst => 0#64

theorem effect_responses (i : Instr) (s : State) :
    (effect i s).responses = s.responses ++ [response 0#8 (responseData i s (effect i s))] := by
  cases i with
  | nop | init k0 k1 c d | absb b | final | rdig | rdst | rst => rfl
  | absw w => rw [effect, respond_responses, absorbBytes_responses]; rfl

/-- A command appends one response: code 0 with its data where it is legal, code 2 with data 0 where it is not. -/
theorem exec_responses {i : Instr} {s t : State} (h : exec i s = .next t) :
    (legal i s.phase = true ∧ t.responses = s.responses ++ [response 0#8 (responseData i s t)]) ∨
    (legal i s.phase = false ∧ t.responses = s.responses ++ [response 2#8 0#64]) := by
  rcases exec_cases h with ⟨hl, rfl⟩ | ⟨hl, rfl⟩
  · exact .inl ⟨hl, effect_responses i s⟩
  · exact .inr ⟨hl, rfl⟩

theorem legal_absorb_iff {i : Instr} {p : Phase} (hi : isAbsorb i = true) : legal i p = true ↔ p = .absorbing := by
  refine ⟨phase_of_legal_absorb hi, ?_⟩
  rintro rfl
  cases i with
  | absb b | absw w => rfl
  | _ => cases hi

/-- The SEQ entries of the legality table (R191), as R212 names them. -/
theorem not_legal_iff (i : Instr) (p : Phase) :
    legal i p = false ↔
      ((isAbsorb i = true ∨ i = .final) ∧ p ≠ .absorbing) ∨ (i = .rdig ∧ p ≠ .finalized) := by
  rw [← Bool.not_eq_true]
  cases i with
  | absb b | absw w =>
    rw [legal_absorb_iff rfl]
    simp [isAbsorb]
  | final => simp [legal_final_iff]
  | rdig => simp [legal_rdig_iff, isAbsorb]
  | nop | init k0 k1 c d | rdst | rst => simp [legal, isAbsorb]

/-- Settles O40: the code is 0 where the command is legal and 2 where the table says SEQ. -/
theorem legalityTable : Obligations.LegalityTable := by
  intro i s
  obtain ⟨t, ht⟩ := exec_next i s
  rcases exec_responses ht with ⟨hl, hresp⟩ | ⟨hl, hresp⟩
  · refine ⟨t, _, ht, hresp, .inl (respCode_response _ _), ?_⟩
    simp [respCode_response, ← not_legal_iff, hl]
  · refine ⟨t, _, ht, hresp, .inr (respCode_response _ _), ?_⟩
    simp [respCode_response, ← not_legal_iff, hl]

/-- Settles O41: an Illegal word responds code 3, a command code 0 with its data or code 2; the empty port and the reset
input leave the responses. -/
theorem oneResponsePerCommand : Obligations.OneResponsePerCommand := by
  refine ⟨fun s cw rest hin => ?_, fun s h => ?_⟩
  · cases hd : decode cw with
    | illegal why =>
      refine ⟨_, response 3#8 0#64, step_illegal hin hd, rfl, rfl, ?_⟩
      simp [respCode_response, respData_response]
    | ok i =>
      obtain ⟨t, ht⟩ := exec_next i { s with inputs := rest }
      have hstep : step s = .next t := (step_command hin hd).trans ht
      rcases exec_responses ht with ⟨_, hresp⟩ | ⟨_, hresp⟩
      · exact ⟨t, _, hstep, exec_keeps_inputs ht, hresp, .inl (respCode_response _ _),
          fun hne => absurd (respCode_response _ _) hne, fun _ => ⟨i, rfl, respData_response _ _⟩⟩
      · refine ⟨t, _, hstep, exec_keeps_inputs ht, hresp, ?_⟩
        simp [respCode_response, respData_response]
  · rcases h with hempty | hreset
    · exact ⟨s, step_idle hempty, rfl⟩
    · obtain ⟨rest, hstep⟩ := step_of_nextIsReset hreset
      exact ⟨_, hstep, rfl⟩

/-! ## NOP, RDST and RST (R192, R193, R194) -/

/-- Settles O35: NOP is legal in every phase and its effect is its response alone. -/
theorem nopChangesNothing : Obligations.NopChangesNothing := by
  have hword {cw : CommandWord} (hop : opField cw = 0x00#8) :=
    decode_or_raisesIllegal_of_format_z hop (by decide) rfl (commandOf_nop hop)
  exact ⟨fun _ => exec_of_legal rfl, (hword (by decide)).1 (by decide), fun _ hop => (hword hop).2⟩

/-- Settles O36: RDST is legal in every phase and its effect is its response alone. -/
theorem rdstReturnsStatus : Obligations.RdstReturnsStatus :=
  ⟨fun _ => exec_of_legal rfl,
    fun _ hop => decode_or_raisesIllegal_of_format_z hop (by decide) rfl (commandOf_rdst hop)⟩

/-- Only RST clears a nonzero ERR: fault entry keeps it, and no other command writes it (R27, R194). -/
theorem rst_of_exec_clears_err {i : Instr} {s t : State} (h : exec i s = .next t) (hs : s.err ≠ 0#8)
    (ht : t.err = 0#8) : i = .rst := by
  have hne : t.err ≠ s.err := fun he => hs (he.symm.trans ht)
  rcases exec_cases h with ⟨_, rfl⟩ | ⟨_, rfl⟩
  · exact writer_of_err hne
  · rcases raise_err_cases .sequenceError s with he | ⟨h0, _⟩
    · exact absurd he hne
    · exact absurd h0 hs

/-- Settles O38: RST is legal in every phase; ERR and PHASE show that no other command clears or leads to IDLE. -/
theorem rstResetsRegisters : Obligations.RstResetsRegisters :=
  ⟨fun _ => exec_of_legal rfl, fun _ _ _ => rst_of_exec_clears_err,
    fun _ _ _ h hs ht => rst_of_nextPhase_idle hs ((exec_phase h).symm.trans ht),
    fun _ hop => decode_or_raisesIllegal_of_format_z hop (by decide) rfl (commandOf_rst hop)⟩

/-! ## One step (R196) -/

/-- Settles O42, by what stands on the port: a legal word, an Illegal one, nothing. -/
theorem stepRunsDecodedInstruction : Obligations.StepRunsDecodedInstruction :=
  ⟨fun _ _ _ _ => step_command, fun _ _ _ _ => step_illegal, fun _ => step_idle⟩

end Sys2Proof.Proofs
end

section
/-! Exceptions (60_exceptions.md R214 to R222): what fault entry changes, which exception or reset comes first, what a step
shows the host, and a transaction with words in it that fault. -/

namespace Sys2Proof.Proofs

open Sys2Proof Sys2Proof.Machine Sys2Proof.Laws

/-! ## Priority (R216) -/

/-- Settles O45: the decoder reads no PHASE, the boundary checks the key before it has a command, and the reset input
takes the command it overtakes with it. -/
theorem exceptionPriority : Obligations.ExceptionPriority :=
  ⟨fun _ _ => raisesIllegal_of_decode, fun _ hkey _ => expandHash_of_key_length_ne hkey,
    fun _ _ _ hin => ⟨_, step_resetDuring hin, ⟨⟨rfl, rfl, rfl, rfl, rfl, rfl, rfl⟩, rfl⟩, rfl⟩⟩

/-! ## Fault entry (R217) -/

/-- Fault entry read off the response it gives: ERR takes the response's code if it was 0, and no other register
changes. -/
theorem raise_eq_of_response {e : Exc} {s : State} {r : ResponseWord}
    (h : (raise e s).responses = s.responses ++ [r]) :
    raise e s = { s with err := if s.err = 0#8 then respCode r else s.err
                         responses := s.responses ++ [response (respCode r) 0#64] } := by
  obtain rfl : response e.code 0#64 = r := List.singleton_inj.1 (List.append_cancel_left h)
  rw [respCode_response]
  rfl

/-- A legal command is answered with code 0 (R191, R195). -/
theorem respCode_of_effect {i : Instr} {s : State} {r : ResponseWord}
    (h : (effect i s).responses = s.responses ++ [r]) : respCode r = 0#8 := by
  rw [effect_responses] at h
  obtain rfl := List.singleton_inj.1 (List.append_cancel_left h)
  exact respCode_response _ _

/-- Settles O43: a word is Illegal, out of sequence or legal; the first two are fault entry, and the last has no nonzero
code. -/
theorem faultEntry : Obligations.FaultEntry := by
  intro s t cw rest r hin hstep hresp hcode
  cases hd : decode cw with
  | illegal why =>
    rw [step_illegal hin hd] at hstep
    obtain rfl := Host.Outcome.next.inj hstep
    exact raise_eq_of_response hresp
  | ok i =>
    rw [step_command hin hd] at hstep
    rcases exec_cases hstep with ⟨_, rfl⟩ | ⟨_, rfl⟩
    · exact absurd (respCode_of_effect hresp) hcode
    · exact raise_eq_of_response hresp

/-! ## What a step shows the host (R32, R222) -/

theorem respond_sameVisible {s₁ s₂ : State} {data₁ data₂ : Word} (h : SameVisible s₁ s₂) (hdata : data₂ = data₁) :
    SameVisible (respond data₁ s₁) (respond data₂ s₂) := by
  obtain ⟨hlen, hcr, hfr, hphase, herr, hdigest, hin, hresp⟩ := h
  exact ⟨hlen, hcr, hfr, hphase, herr, hdigest, hin, by simp [hresp, hdata]⟩

theorem raise_sameVisible {s₁ s₂ : State} (e : Exc) (h : SameVisible s₁ s₂) :
    SameVisible (raise e s₁) (raise e s₂) := by
  obtain ⟨hlen, hcr, hfr, hphase, herr, hdigest, hin, hresp⟩ := h
  exact ⟨hlen, hcr, hfr, hphase, by simp [herr], hdigest, hin, by simp [hresp]⟩

theorem resetRegisters_sameVisible {s₁ s₂ : State} (h : SameVisible s₁ s₂) :
    SameVisible (resetRegisters s₁) (resetRegisters s₂) := by
  obtain ⟨_, _, _, _, _, _, hin, hresp⟩ := h
  exact ⟨rfl, rfl, rfl, rfl, rfl, fun _ => rfl, hin, hresp⟩

/-- Taking the port's oldest entry from two states that look alike. -/
theorem setInputs_sameVisible {s₁ s₂ : State} (rest : List PortEvent) (h : SameVisible s₁ s₂) :
    SameVisible { s₁ with inputs := rest } { s₂ with inputs := rest } := by
  obtain ⟨hlen, hcr, hfr, hphase, herr, hdigest, _, hresp⟩ := h
  exact ⟨hlen, hcr, hfr, hphase, herr, hdigest, rfl, hresp⟩

/-- Of the registers that show, absorbing changes LEN alone, by the number of bytes. -/
theorem absorbBytes_sameVisible {s₁ s₂ : State} (bs : List Byte) (h : SameVisible s₁ s₂) :
    SameVisible (absorbBytes bs s₁) (absorbBytes bs s₂) := by
  obtain ⟨hlen, hcr, hfr, hphase, herr, hdigest, hin, hresp⟩ := h
  refine ⟨?_, ?_, ?_, ?_, ?_, ?_, ?_, ?_⟩
  · rw [absorbBytes_len, absorbBytes_len, hlen]
  all_goals simpa

/-- STATUS is made of registers that show (R28). -/
theorem status_of_sameVisible {s₁ s₂ : State} (h : SameVisible s₁ s₂) : status s₂ = status s₁ := by
  obtain ⟨hlen, hcr, hfr, hphase, herr, _⟩ := h
  simp only [status, hlen, hcr, hfr, hphase, herr]

/-- A legal command but FINAL shows no more of two states that look alike; RDIG is legal where DIGEST shows. -/
theorem effect_sameVisible {i : Instr} {s₁ s₂ : State} (h : SameVisible s₁ s₂) (hl : legal i s₁.phase = true)
    (hfinal : i ≠ .final) : SameVisible (effect i s₁) (effect i s₂) := by
  cases i with
  | nop => exact respond_sameVisible h rfl
  | init k0 k1 c d =>
    obtain ⟨_, _, _, _, herr, _, hin, hresp⟩ := h
    exact respond_sameVisible ⟨rfl, rfl, rfl, rfl, herr, fun _ => rfl, hin, hresp⟩ rfl
  | absb b => exact respond_sameVisible (absorbBytes_sameVisible [b] h) rfl
  | absw w => exact respond_sameVisible (absorbBytes_sameVisible (wordBytes w) h) rfl
  | final => exact absurd rfl hfinal
  | rdig =>
    have hdigest : s₂.digest = s₁.digest := by
      obtain ⟨_, _, _, _, _, hdigest, _⟩ := h
      exact hdigest (legal_rdig_iff.1 hl)
    exact respond_sameVisible h hdigest
  | rdst => exact respond_sameVisible h (status_of_sameVisible h)
  | rst => exact respond_sameVisible (resetRegisters_sameVisible h) rfl

/-- A command but FINAL, in sequence or not, since PHASE shows. -/
theorem exec_sameVisible {i : Instr} {s₁ s₂ : State} (h : SameVisible s₁ s₂) (hfinal : i ≠ .final) :
    ∃ t₁ t₂, exec i s₁ = .next t₁ ∧ exec i s₂ = .next t₂ ∧ SameVisible t₁ t₂ := by
  have hphase : s₂.phase = s₁.phase := by
    obtain ⟨_, _, _, hphase, _⟩ := h
    exact hphase
  refine ⟨_, _, exec_eq i s₁, exec_eq i s₂, ?_⟩
  rw [hphase]
  cases hl : legal i s₁.phase with
  | true => exact effect_sameVisible h hl hfinal
  | false => exact raise_sameVisible .sequenceError h

/-- Settles O53, by what stands at the head of the port, which is the same in both states. -/
theorem wordsNotRevealed : Obligations.WordsNotRevealed := by
  intro s₁ s₂ h hfinal
  have hsame : s₂.inputs = s₁.inputs := by
    obtain ⟨_, _, _, _, _, _, hin, _⟩ := h
    exact hin
  rcases hin : s₁.inputs with _ | ⟨event, rest⟩ <;> rw [hin] at hsame
  · exact ⟨s₁, s₂, step_idle hin, step_idle hsame, h⟩
  · have hrest := setInputs_sameVisible rest h
    cases event with
    | resetInput => exact ⟨_, _, step_reset hin, step_reset hsame, resetRegisters_sameVisible hrest⟩
    | resetDuring cw =>
      exact ⟨_, _, step_resetDuring hin, step_resetDuring hsame, resetRegisters_sameVisible hrest⟩
    | command cw =>
      cases hd : decode cw with
      | illegal why =>
        exact ⟨_, _, step_illegal hin hd, step_illegal hsame hd, raise_sameVisible .illegalCommand hrest⟩
      | ok i =>
        rw [step_command hin hd, step_command hsame hd]
        refine exec_sameVisible hrest ?_
        rintro rfl
        exact hfinal ⟨cw, rest, hin, hd⟩

/-! ## Words between INIT and FINAL (R198, R218) -/

/-- No exception has code 0, so ERR is nonzero after fault entry (R27). -/
theorem raise_err_ne_zero (e : Exc) (s : State) : (raise e s).err ≠ 0#8 := by
  by_cases h : s.err = 0#8
  · cases e <;> simp [stickyErr, h, Exc.code]
  · simp [stickyErr, h]

theorem sameButErr_trans {s t u : State} (h : SameButErr s t) (h' : SameButErr t u) : SameButErr s u := by
  obtain ⟨hv, hcr, hfr, hlen, hbuf, hphase, hdigest⟩ := h
  obtain ⟨hv', hcr', hfr', hlen', hbuf', hphase', hdigest'⟩ := h'
  exact ⟨hv'.trans hv, hcr'.trans hcr, hfr'.trans hfr, hlen'.trans hlen, hbuf'.trans hbuf, hphase'.trans hphase,
    hdigest'.trans hdigest⟩

/-- Absorbing does not read ERR. -/
theorem absorbBytes_sameButErr {s t : State} (bs : List Byte) (h : SameButErr s t) :
    SameButErr (absorbBytes bs s) (absorbBytes bs t) := by
  obtain ⟨hv, hcr, hfr, hlen, hbuf, hphase, hdigest⟩ := h
  have ht : t = { s with err := t.err, inputs := t.inputs, responses := t.responses } := by
    simp only [← hv, ← hcr, ← hfr, ← hlen, ← hbuf, ← hphase, ← hdigest]
  have henv := absorbBytes_env bs s t.err t.inputs t.responses
  rw [ht, henv]
  exact ⟨rfl, rfl, rfl, rfl, rfl, rfl, rfl⟩

/-- What words inside a transaction make of `s`: the bytes they carried are absorbed, and ERR tells of a fault among them
or before them. -/
structure AfterWords (words : List CommandWord) (s t : State) : Prop where
  registers : SameButErr (absorbBytes (words.flatMap carriedByWord) s) t
  err : s.err ≠ 0#8 ∨ (∃ w ∈ words, faultsInTransaction w = true) → t.err ≠ 0#8

theorem AfterWords.nil (s : State) : AfterWords [] s s :=
  ⟨⟨rfl, rfl, rfl, rfl, rfl, rfl, rfl⟩, by simp⟩

/-- Words leave a core in ABSORBING there. -/
theorem AfterWords.phase {words : List CommandWord} {s t : State} (h : AfterWords words s t)
    (hp : s.phase = .absorbing) : t.phase = .absorbing := by
  obtain ⟨_, _, _, _, _, hphase, _⟩ := h.registers
  rw [hphase, absorbBytes_phase, hp]

theorem AfterWords.cons {w : CommandWord} {words : List CommandWord} {s t u : State} (h : AfterWords [w] s t)
    (h' : AfterWords words t u) : AfterWords (w :: words) s u := by
  constructor
  · have hfirst : SameButErr (absorbBytes (carriedByWord w) s) t := by simpa using h.registers
    rw [List.flatMap_cons, absorbBytes_append]
    exact sameButErr_trans (absorbBytes_sameButErr _ hfirst) h'.registers
  · rintro (herr | ⟨x, hx, hfault⟩)
    · exact h'.err (.inl (h.err (.inl herr)))
    · rcases List.mem_cons.1 hx with rfl | hx
      · exact h'.err (.inl (h.err (.inr ⟨x, by simp, hfault⟩)))
      · exact h'.err (.inr ⟨x, hx, hfault⟩)

/-- An Illegal word, or a command out of sequence that carries no byte. -/
theorem AfterWords.of_raise {w : CommandWord} {s : State} (e : Exc) (rest : List PortEvent)
    (hcarried : carriedByWord w = []) : AfterWords [w] s (raise e { s with inputs := rest }) := by
  refine ⟨?_, fun _ => raise_err_ne_zero e _⟩
  rw [List.flatMap_singleton, hcarried]
  exact ⟨rfl, rfl, rfl, rfl, rfl, rfl, rfl⟩

/-- A command that completes with its bytes absorbed, none for most commands. -/
theorem AfterWords.of_respond {w : CommandWord} {bs : List Byte} {s : State} (data : Word) (rest : List PortEvent)
    (hcarried : carriedByWord w = bs) (hfault : faultsInTransaction w = false) :
    AfterWords [w] s (respond data (absorbBytes bs { s with inputs := rest })) := by
  have hports := absorbBytes_ports bs s rest s.responses
  constructor
  · rw [List.flatMap_singleton, hcarried, hports]
    exact ⟨rfl, rfl, rfl, rfl, rfl, rfl, rfl⟩
  · simp [hfault]

/-- Any word but INIT, FINAL and RST, in ABSORBING: NOP, RDST and the absorb commands are legal there; an Illegal word and
RDIG fault. -/
theorem step_in_transaction {s : State} {w : CommandWord} {rest : List PortEvent} (hp : s.phase = .absorbing)
    (hin : s.inputs = .command w :: rest) (hstay : staysInTransaction w = true) :
    ∃ t, step s = .next t ∧ t.inputs = rest ∧ AfterWords [w] s t := by
  cases hd : decode w with
  | illegal why =>
    exact ⟨_, step_illegal hin hd, rfl, .of_raise .illegalCommand rest (by simp only [carriedByWord, hd])⟩
  | ok i =>
    have hcarried : carriedByWord w = carried i := by simp only [carriedByWord, hd]
    have hfault : faultsInTransaction w = !legal i .absorbing := by simp only [faultsInTransaction, hd]
    rw [step_command hin hd]
    cases i with
    | nop | absb b | absw w' | rdst =>
      exact ⟨_, exec_of_legal (by simp [hp, legal]), by simp [effect], .of_respond _ rest hcarried hfault⟩
    | rdig =>
      exact ⟨_, raisesSequence_of_not_legal (by simp [hp, legal]), rfl, .of_raise .sequenceError rest hcarried⟩
    | init k0 k1 c d | final | rst => simp [staysInTransaction, hd] at hstay

/-- A run that answers a next state goes on from it. -/
theorem coreRun_add (M : Host.Core) {m : Nat} (n : Nat) {s t : M.State} (h : M.run m s = .next t) :
    M.run (m + n) s = M.run n t := by
  induction m generalizing s with
  | zero =>
    obtain rfl := Host.Outcome.next.inj h
    rw [Nat.zero_add]
  | succ m ih =>
    rw [Nat.succ_add]
    simp only [Host.Core.run] at h ⊢
    cases hstep : M.step s with
    | next u =>
      rw [hstep] at h
      exact ih h
    | fault f | refused r =>
      rw [hstep] at h
      cases h

/-- A core in ABSORBING takes such words one after another. -/
theorem run_words {words : List CommandWord} {s : State} {rest : List PortEvent} (hp : s.phase = .absorbing)
    (hin : s.inputs = words.map PortEvent.command ++ rest) (hstay : ∀ w ∈ words, staysInTransaction w = true) :
    ∃ t : State, Host.Core.run Sys2Proof.core words.length s = .next t ∧ t.inputs = rest ∧ AfterWords words s t := by
  induction words generalizing s with
  | nil => exact ⟨s, rfl, hin, .nil s⟩
  | cons w words ih =>
    obtain ⟨t, hstep, hrest, hfirst⟩ := step_in_transaction hp hin (hstay w (by simp))
    obtain ⟨u, hrun, hin', hafter⟩ := ih (hfirst.phase hp) hrest fun x hx => hstay x (by simp [hx])
    exact ⟨u, (run_succ hstep).trans hrun, hin', hfirst.cons hafter⟩

/-- What FINAL folds after INIT and a message's bytes (R148, R163). -/
theorem finish_digest_of_message {k0 k1 : Word} {c d : Byte} {msg : List Byte} {s t : State}
    (h : SameButErr (absorbBytes msg (effect (.init k0 k1 c d) s)) t) :
    (finish t).digest = foldWords (finalWords Config.standard k0 k1 c d msg) := by
  rw [absorbBytes_message msg _ rfl rfl] at h
  obtain ⟨hv, hcr, hfr, hlen, hbuf, _, _⟩ := h
  rw [finish_digest, hv, hcr, hfr, hlen, hbuf, tailWord_message]
  rfl

theorem step_encode_init {k0 k1 : Word} {c d : Byte} {s : State} {rest : List PortEvent}
    (hin : s.inputs = .command (encode (.init k0 k1 c d)) :: rest) :
    step s = .next (effect (.init k0 k1 c d) { s with inputs := rest }) :=
  (step_command hin (decode_encode _)).trans (exec_init k0 k1 c d _)

theorem step_encode_final {s : State} {rest : List PortEvent} (hp : s.phase = .absorbing)
    (hin : s.inputs = .command (encode .final) :: rest) :
    step s = .next (respond (finish s).digest { finish s with inputs := rest }) :=
  (step_command hin (decode_encode _)).trans (exec_final hp)

/-- A transaction on the port with such words between INIT and FINAL: the digest is that of the bytes they carried, and ERR
tells of a fault among them (R218). -/
theorem run_transaction_words {k0 k1 : Word} {c d : Byte} {words : List CommandWord} {s : State}
    {rest : List PortEvent} (hstay : ∀ w ∈ words, staysInTransaction w = true)
    (hin : s.inputs = .command (encode (.init k0 k1 c d)) ::
      (words.map PortEvent.command ++ .command (encode .final) :: rest)) :
    ∃ t : State, Host.Core.run Sys2Proof.core (words.length + 2) s = .next t ∧ t.inputs = rest ∧
      t.phase = .finalized ∧
      t.responses.getLast? =
        some (response 0#8 (foldWords (finalWords Config.standard k0 k1 c d (words.flatMap carriedByWord)))) ∧
      ((∃ w ∈ words, faultsInTransaction w = true) → t.err ≠ 0#8) := by
  have hinit := step_encode_init hin
  obtain ⟨t, hwords, hport, hafter⟩ := run_words (s := effect (.init k0 k1 c d)
    { s with inputs := words.map PortEvent.command ++ .command (encode .final) :: rest }) rfl rfl hstay
  have hfinal := step_encode_final (hafter.phase rfl) hport
  refine ⟨respond (finish t).digest { finish t with inputs := rest }, ?_, rfl, rfl, ?_,
    fun hfault => hafter.err (.inr hfault)⟩
  · rw [run_succ hinit, coreRun_add Sys2Proof.core 1 hwords, run_succ hfinal]
    rfl
  · rw [respond_responses, List.getLast?_concat, finish_digest_of_message hafter.registers]

/-- Settles O28: INIT, then words that absorb what they carry and otherwise touch ERR alone, then FINAL, which folds the
words of those bytes. -/
theorem faultsDoNotSpoilTransaction : Obligations.FaultsDoNotSpoilTransaction := by
  intro c d key words s rest hkey hstay hin
  rw [sipHashCD_of_key_length _ _ _ _ hkey]
  exact run_transaction_words hstay hin

end Sys2Proof.Proofs
end

section
/-! Reset and hazards (70_reset_and_hazards.md R240, R248), and three subjects of other chapters: encoding and decoding
back (30_encoding.md), ROTL64 (40_permutation.md R111), and the boundary's refusal of a wide round count
(93_implementation_defined.md U5). -/

namespace Sys2Proof.Proofs

open Sys2Proof Sys2Proof.Machine Sys2Proof.Laws

/-! ## Encoding and decoding back (R83, R85, R87) -/

/-- Settles O2: every command's word is legal, and its operands stand where the decoder looks for them. -/
theorem decodeEncodeRoundTrip : Obligations.DecodeEncodeRoundTrip := decode_encode

/-- A word that decodes passed both checks of R91. -/
theorem checks_pass_of_decode {cw : CommandWord} {i : Instr} (h : decode cw = .ok i) :
    ¬ 0x07#8 < opField cw ∧ ¬ MustBeZeroBitSet cw := by
  have h7 : ¬ 0x07#8 < opField cw := fun hr => nomatch h.symm.trans (decode_reserved hr)
  exact ⟨h7, fun hm => nomatch h.symm.trans (decode_mustBeZero h7 hm)⟩

/-- Settles O3: a word that decodes has no must-be-zero bit set, and then its command carries every other bit of it. -/
theorem encodeDecodeRoundTrip : Obligations.EncodeDecodeRoundTrip := by
  intro cw i h
  obtain ⟨h7, hm⟩ := checks_pass_of_decode h
  obtain ⟨-, hencode⟩ := encode_commandOf h7 hm
  obtain rfl : commandOf cw = i := Decoded.ok.inj ((decode_command h7 hm).symm.trans h)
  exact hencode

/-- Settles O7. -/
theorem responseLayout : Obligations.ResponseLayout :=
  fun code data => ⟨respCode_response code data, respData_response code data⟩

/-! ## ROTL64 (R111) -/

/-- Settles O9: the bit law holds for every amount up to 64, and two rotations by 32 go once around the word. -/
theorem rotlMovesBits : Obligations.RotlMovesBits := by
  have hamount : ∀ n ∈ [13, 16, 17, 21, 32], n ≤ 64 := by decide
  exact ⟨fun a n hn _ hi => getLsbD_rotl64 a (hamount n hn) hi, fun a => rotl64_rotl64_cancel a rfl⟩

/-! ## Round counts at the boundary (U5) -/

/-- With a key of the right length, counts that do not both fit 8 bits have no expansion. -/
theorem expandHash_of_wide_count {key msg : List Byte} {c d : Nat} (hkey : key.length = 16)
    (hwide : 255 < c ∨ 255 < d) : expandHash ⟨key, msg, c, d⟩ = .refused .roundCountTooWide := by
  have hkeyOk : HashCall.keyLengthOk ⟨key, msg, c, d⟩ = true := beq_iff_eq.2 hkey
  have hcounts : ¬ HashCall.countsOk ⟨key, msg, c, d⟩ = true := by
    simp only [HashCall.countsOk, Bool.and_eq_true, decide_eq_true_eq]
    omega
  rw [expandHash, if_pos hkeyOk, if_neg hcounts]

/-- Settles O32: the key check comes first, then the counts; a call turned away by either leaves the system. -/
theorem wideRoundCountRefused : Obligations.WideRoundCountRefused := by
  refine ⟨fun c d sys hkey hwide => ?_,
    fun c d sys hkey => ⟨expandHash_of_key_length_ne hkey, hash_of_key_length_ne hkey⟩⟩
  simp only [System.hash, expandHash_of_wide_count hkey hwide]

/-! ## The reset input and RST (R240) -/

theorem sameRegisters_resetRegisters (s : State) : SameRegisters State.reset (resetRegisters s) :=
  ⟨⟨rfl, rfl, rfl, rfl, rfl, rfl, rfl⟩, rfl⟩

/-- Settles O48: the reset input and RST reset the registers alike, and RST responds. -/
theorem resetInputAndRstAgree : Obligations.ResetInputAndRstAgree := by
  refine ⟨fun s hreset => ?_, fun s => exec_of_legal (i := .rst) rfl⟩
  obtain ⟨rest, hstep⟩ := step_of_nextIsReset hreset
  exact ⟨_, hstep, sameRegisters_resetRegisters _, rfl⟩

/-- Settles O55: either form of the reset input takes one entry off the port. -/
theorem resetInputTakesItsEntry : Obligations.ResetInputTakesItsEntry :=
  ⟨fun _ _ => step_reset, fun _ _ _ => step_resetDuring⟩

/-! ## The rounds of the reference function (R248) -/

/-- Counting changes nothing but the count: `n` counted rounds are `n` rounds, and the count is `n` more. -/
theorem repeatTimes_countedRound (n : Nat) (x : Worked) :
    repeatTimes countedRound n x = ⟨x.count + n, repeatTimes sipRoundSimultaneous n x.words⟩ := by
  induction n generalizing x with
  | zero => rfl
  | succ n ih =>
    have hcount : x.count + 1 + n = x.count + (n + 1) := by omega
    rw [repeatTimes, ih, countedRound, hcount, repeatTimes]

/-- A counted block is a block, at `c` rounds. -/
theorem countedBlock_eq (c : Byte) (x : Worked) (m : Word) :
    countedBlock c x m = ⟨x.count + c.toNat, refBlock c x.words m⟩ := by
  rw [countedBlock, repeatTimes_countedRound, refBlock]

/-- Counted blocks are the blocks, at `c` rounds each. -/
theorem foldl_countedBlock (c : Byte) (ms : List Word) (x : Worked) :
    ms.foldl (countedBlock c) x = ⟨x.count + c.toNat * ms.length, ms.foldl (refBlock c) x.words⟩ := by
  induction ms generalizing x with
  | nil => rfl
  | cons m ms ih =>
    have hcount : x.count + c.toNat + c.toNat * ms.length = x.count + c.toNat * (ms.length + 1) := by ring
    rw [List.foldl_cons, ih, countedBlock_eq, List.length_cons, hcount, List.foldl_cons]

theorem length_fullBlocks (msg : List Byte) : (fullBlocks msg).length = msg.length / 8 := by
  rw [fullBlocks, List.length_map, List.length_range]

/-- Settles O26: `c` rounds for each full block and for the tail block, then `d` rounds. -/
theorem roundsOfReferenceFunction : Obligations.RoundsOfReferenceFunction := by
  intro cfg c d key msg
  simp only [sipHashCounted, foldl_countedBlock, countedBlock_eq, repeatTimes_countedRound, length_fullBlocks]
  have hcount : 0 + c.toNat * (msg.length / 8) + c.toNat + d.toNat = c.toNat * (msg.length / 8 + 1) + d.toNat := by ring
  rw [hcount, sipHashCD]

end Sys2Proof.Proofs
end
